-- ==== Sys2Proof/Word.lean ====
section
/-! DEFINITION. The word and register-name types (00_scope.md R5, R7; 30_encoding.md R55). -/

namespace Sys2Proof

/-- A register, a memory word, an instruction or the program counter: 16 bits
(`REG_WIDTH = WORD_WIDTH = PC_WIDTH = 16`, 00_scope.md R5). -/
abbrev Word := BitVec 16

/-- The name of a general register, `x[0]` to `x[7]` (30_encoding.md R55). -/
abbrev Reg := Fin 8

end Sys2Proof
end

