-- ==== Sys2Proof/Syntax.lean ====
section
/-! DEFINITION. The instructions: one constructor per row of spec/opcode_table.json. -/

namespace Sys2Proof

/-- The instruction set of 30_encoding.md R57, with the five reserved rows of 40_three_register.md R76.
Operands stand in the order of the spec's listings, destination first (30_encoding.md R62).
A 7-bit immediate is held as the integer `sext_7(imm7)` (R56) and a 13-bit target as the number it is
(R59). Bits that decoding ignores (R60) are kept, so that no bit of a word is lost (log entry 9). -/
inductive Instr where
  | add (rD rA rB : Reg)
  | sub (rD rA rB : Reg)
  | or (rD rA rB : Reg)
  | and (rD rA rB : Reg)
  | slt (rD rA rB : Reg)
  | jr (rA : Reg) (ignored : BitVec 6)
  | reservedNop0101 (ignored : BitVec 9)
  | reservedNop011x (ignored : BitVec 9) (x : BitVec 1)
  | reservedNop1001 (ignored : BitVec 9)
  | reservedNop101x (ignored : BitVec 9) (x : BitVec 1)
  | reservedNop11xx (ignored : BitVec 9) (xx : BitVec 2)
  | addi (rB rA : Reg) (imm : Int)
  | slti (rB rA : Reg) (imm : Int)
  | lw (rB rA : Reg) (imm : Int)
  | sw (rB rA : Reg) (imm : Int)
  | jeq (rA rB : Reg) (imm : Int)
  | j (target : Nat)
  | jal (target : Nat)
  deriving DecidableEq, Repr

end Sys2Proof
end

