-- ==== Sys2Proof/WellFormed.lean ====
section
/-! DEFINITION. Which instruction terms have an encoding. -/

namespace Sys2Proof

/-- The range of a 7-bit two's-complement immediate, `-64 .. 63` (30_encoding.md R56). -/
def immInRange (imm : Int) : Bool := -64 ≤ imm && imm ≤ 63

/-- The range of a 13-bit absolute target, `0 .. 8191` (30_encoding.md R59). -/
def targetInRange (target : Nat) : Bool := target ≤ 8191

/-- Register fields and ignored bits are in range by their types; an immediate or a target must fit
its field. -/
def Instr.wellFormed : Instr → Bool
  | .add _ _ _ => true
  | .sub _ _ _ => true
  | .or _ _ _ => true
  | .and _ _ _ => true
  | .slt _ _ _ => true
  | .jr _ _ => true
  | .reservedNop0101 _ => true
  | .reservedNop011x _ _ => true
  | .reservedNop1001 _ => true
  | .reservedNop101x _ _ => true
  | .reservedNop11xx _ _ => true
  | .addi _ _ imm => immInRange imm
  | .slti _ _ imm => immInRange imm
  | .lw _ _ imm => immInRange imm
  | .sw _ _ imm => immInRange imm
  | .jeq _ _ imm => immInRange imm
  | .j target => targetInRange target
  | .jal target => targetInRange target

end Sys2Proof
end

