-- ==== Sys2Proof/Decode.lean ====
section
/-! DEFINITION. The decoder of 30_encoding.md R58, the encoder written from the formats R52 to R54, and
the match/mask table of R57. Decoding is total and rejects no word (R58, R61). -/

namespace Sys2Proof

/-- The register field `w[lo+2:lo]` (30_encoding.md R55). -/
def regField (w : Word) (lo : Nat) : Reg := (w.extractLsb' lo 3).toFin

/-- `sext_7(imm7)`, the two's-complement value of a 7-bit field (30_encoding.md R56). -/
def sext7 (imm7 : BitVec 7) : Int := imm7.toInt

/-- The immediate of format I, `sext_7(w[6:0])` (30_encoding.md R53, R56). -/
def immField (w : Word) : Int := sext7 (w.extractLsb' 0 7)

/-- The absolute target of format J, `w[12:0]` (30_encoding.md R54, R59). -/
def targetField (w : Word) : Nat := (w.extractLsb' 0 13).toNat

/-- The three-register family: the suffix `w[3:0]` selects (30_encoding.md R52, R58; 40_three_register.md
R76 for the ten unassigned suffixes). -/
def decodeThreeRegister (w : Word) : Instr :=
  match (w.extractLsb' 0 4).toNat with
  | 0 => .add (regField w 4) (regField w 10) (regField w 7)
  | 1 => .sub (regField w 4) (regField w 10) (regField w 7)
  | 2 => .or (regField w 4) (regField w 10) (regField w 7)
  | 3 => .and (regField w 4) (regField w 10) (regField w 7)
  | 4 => .slt (regField w 4) (regField w 10) (regField w 7)
  | 8 => .jr (regField w 10) (w.extractLsb' 4 6)
  | 5 => .reservedNop0101 (w.extractLsb' 4 9)
  | 6 | 7 => .reservedNop011x (w.extractLsb' 4 9) (w.extractLsb' 0 1)
  | 9 => .reservedNop1001 (w.extractLsb' 4 9)
  | 10 | 11 => .reservedNop101x (w.extractLsb' 4 9) (w.extractLsb' 0 1)
  -- the suffixes left are 1100, 1101, 1110, 1111
  | _ => .reservedNop11xx (w.extractLsb' 4 9) (w.extractLsb' 0 2)

/-- The decode function of 30_encoding.md R58: `w[15:13]` selects the family (R51). -/
def decodeWord (w : Word) : Instr :=
  match (w.extractLsb' 13 3).toNat with
  | 0 => decodeThreeRegister w
  | 1 => .addi (regField w 7) (regField w 10) (immField w)
  | 2 => .j (targetField w)
  | 3 => .jal (targetField w)
  | 4 => .lw (regField w 7) (regField w 10) (immField w)
  | 5 => .sw (regField w 7) (regField w 10) (immField w)
  | 6 => .jeq (regField w 10) (regField w 7) (immField w)
  -- the prefix left is 111
  | _ => .slti (regField w 7) (regField w 10) (immField w)

/-- The instruction of an opcode-table word. Every row of the table is one 16-bit word, so a word of
more bits is no row. Bits above `nbits` are 0. -/
def decodeTableWord (nbits w : Nat) : Option Instr :=
  if nbits ≤ 16 ∧ w < 2 ^ nbits then some (decodeWord (BitVec.ofNat 16 w)) else none

/-- The three bits of a register field. -/
def regBits (r : Reg) : BitVec 3 := BitVec.ofFin r

/-- Format R: `000 rA rB rD fn` (30_encoding.md R52). -/
def formatR (rA rB rD : Reg) (fn : BitVec 4) : Word :=
  0b000#3 ++ regBits rA ++ regBits rB ++ regBits rD ++ fn

/-- A reserved word of the three-register family: `000 xxxxxxxxx fn` (30_encoding.md R60). -/
def formatReserved (ignored : BitVec 9) (fn : BitVec 4) : Word :=
  0b000#3 ++ ignored ++ fn

/-- Format I: `op rA rB imm7`, with `imm7 = imm mod 128` (30_encoding.md R53, R62). -/
def formatI (op : BitVec 3) (rA rB : Reg) (imm : Int) : Word :=
  op ++ regBits rA ++ regBits rB ++ BitVec.ofInt 7 imm

/-- Format J: `01 L imm13` (30_encoding.md R54). -/
def formatJ (link : BitVec 1) (target : Nat) : Word :=
  0b01#2 ++ link ++ BitVec.ofNat 13 target

/-- The word of an instruction, by the encoding column of 30_encoding.md R57. -/
def encode : Instr → Word
  | .add rD rA rB => formatR rA rB rD 0b0000#4
  | .sub rD rA rB => formatR rA rB rD 0b0001#4
  | .or rD rA rB => formatR rA rB rD 0b0010#4
  | .and rD rA rB => formatR rA rB rD 0b0011#4
  | .slt rD rA rB => formatR rA rB rD 0b0100#4
  | .jr rA ignored => 0b000#3 ++ regBits rA ++ ignored ++ 0b1000#4
  | .reservedNop0101 ignored => formatReserved ignored 0b0101#4
  | .reservedNop011x ignored x => formatReserved ignored (0b011#3 ++ x)
  | .reservedNop1001 ignored => formatReserved ignored 0b1001#4
  | .reservedNop101x ignored x => formatReserved ignored (0b101#3 ++ x)
  | .reservedNop11xx ignored xx => formatReserved ignored (0b11#2 ++ xx)
  | .addi rB rA imm => formatI 0b001#3 rA rB imm
  | .slti rB rA imm => formatI 0b111#3 rA rB imm
  | .lw rB rA imm => formatI 0b100#3 rA rB imm
  | .sw rB rA imm => formatI 0b101#3 rA rB imm
  | .jeq rA rB imm => formatI 0b110#3 rA rB imm
  | .j target => formatJ 0#1 target
  | .jal target => formatJ 1#1 target

/-- The rows of spec/opcode_table.json, as names. -/
inductive Opcode where
  | add | sub | or | and | slt | jr
  | reservedNop0101 | reservedNop011x | reservedNop1001 | reservedNop101x | reservedNop11xx
  | addi | slti | lw | sw | jeq | j | jal
  deriving DecidableEq, Repr

/-- Which row of the table an instruction belongs to. -/
def Instr.opcode : Instr → Opcode
  | .add _ _ _ => .add
  | .sub _ _ _ => .sub
  | .or _ _ _ => .or
  | .and _ _ _ => .and
  | .slt _ _ _ => .slt
  | .jr _ _ => .jr
  | .reservedNop0101 _ => .reservedNop0101
  | .reservedNop011x _ _ => .reservedNop011x
  | .reservedNop1001 _ => .reservedNop1001
  | .reservedNop101x _ _ => .reservedNop101x
  | .reservedNop11xx _ _ => .reservedNop11xx
  | .addi _ _ _ => .addi
  | .slti _ _ _ => .slti
  | .lw _ _ _ => .lw
  | .sw _ _ _ => .sw
  | .jeq _ _ _ => .jeq
  | .j _ => .j
  | .jal _ => .jal

/-- The mask column of 30_encoding.md R57; the reserved rows' masks are opcode_table.json's. -/
def Opcode.mask : Opcode → Word
  | .add | .sub | .or | .and | .slt | .jr | .reservedNop0101 | .reservedNop1001 => 0xE00F
  | .reservedNop011x | .reservedNop101x => 0xE00E
  | .reservedNop11xx => 0xE00C
  | .addi | .slti | .lw | .sw | .jeq | .j | .jal => 0xE000

/-- The match column of 30_encoding.md R57; the reserved rows' values are opcode_table.json's. -/
def Opcode.pattern : Opcode → Word
  | .add => 0x0000
  | .sub => 0x0001
  | .or => 0x0002
  | .and => 0x0003
  | .slt => 0x0004
  | .jr => 0x0008
  | .reservedNop0101 => 0x0005
  | .reservedNop011x => 0x0006
  | .reservedNop1001 => 0x0009
  | .reservedNop101x => 0x000A
  | .reservedNop11xx => 0x000C
  | .addi => 0x2000
  | .slti => 0xE000
  | .lw => 0x8000
  | .sw => 0xA000
  | .jeq => 0xC000
  | .j => 0x4000
  | .jal => 0x6000

end Sys2Proof
end

