-- ==== Sys2Proof/Config.lean ====
section
/-! DEFINITION. The implementation parameters of 00_scope.md R5. This machine has no free value
(93_implementation_defined.md part 1), so no opaque constant stands here. What is computed from a
configuration (validity, line count, address split) is in Machine/CacheState.lean and
Machine/Cache.lean. -/

namespace Sys2Proof

/-- The three integers that configure one cache, in memory words (00_scope.md R5, R6; 50_cache.md R100). -/
structure CacheConfig where
  /-- how many words the cache covers -/
  size : Nat
  /-- slots per set -/
  assoc : Nat
  /-- words per block -/
  blockSize : Nat
  deriving DecidableEq, Repr

/-- What is sampled once, at reset (00_scope.md R5, R9): the memory size and one or two cache
configurations. -/
structure Config where
  memSize : Nat
  l1 : CacheConfig
  l2 : Option CacheConfig
  deriving DecidableEq, Repr

/-- The configuration of `State.reset`: `MEM_SIZE = 32768` (the default of 00_scope.md R5) and the
one-level cache `4, 1, 1` that 95_test_vectors.md uses unless a vector says otherwise.
DESIGN CHOICE (log entry 2), unsafe: a claim about `State.reset` may lean on these four numbers. -/
def Config.default : Config :=
  { memSize := 32768, l1 := { size := 4, assoc := 1, blockSize := 1 }, l2 := none }

end Sys2Proof
end

