-- ==== Sys2Proof/Machine/CacheState.lean ====
section
/-! DEFINITION. The cache state of 10_state.md R19 and R20, what is derived from a configuration
(00_scope.md R6, 50_cache.md R100), and the trace events of 50_cache.md R120. -/

namespace Sys2Proof.Machine

/-- One place of a set (the source's CacheLine): a tag or its absence, and a staleness counter without
an upper bound (10_state.md R19). No data, no dirty bit. -/
structure Slot where
  tag : Option Nat
  recency : Nat
  deriving DecidableEq, Repr

/-- A slot at reset: absent, recency 0 (10_state.md R25). -/
def Slot.absent : Slot := { tag := none, recency := 0 }

/-- The slots that share one line index, in the fixed order in which they are scanned
(10_state.md R20). -/
abbrev CacheSet := List Slot

/-- A cache: its own configuration and its sets, indexed by line (10_state.md R20, 50_cache.md R100). -/
structure Cache where
  config : CacheConfig
  sets : List CacheSet
  deriving DecidableEq, Repr

/-- `numLines = size / (associativity * blockSize)` (50_cache.md R100). -/
def cacheNumLines (c : CacheConfig) : Nat := c.size / (c.assoc * c.blockSize)

/-- A valid triple: all three positive, `size` an exact multiple of `associativity * blockSize`
(00_scope.md R6). -/
def cacheConfigValid (c : CacheConfig) : Bool :=
  0 < c.size && 0 < c.assoc && 0 < c.blockSize && c.size % (c.assoc * c.blockSize) == 0

/-- A valid configuration: valid triples (70_reset_and_hazards.md R155) and a memory size within the
bound that 10_state.md R14 sets for a 16-bit `pc`. -/
def configValid (c : Config) : Bool :=
  c.memSize ≤ 65472 && cacheConfigValid c.l1 && c.l2.all cacheConfigValid

/-- The cache at reset: every slot absent (10_state.md R25, 70_reset_and_hazards.md R151 item 2). -/
def emptyCache (c : CacheConfig) : Cache :=
  { config := c, sets := List.replicate (cacheNumLines c) (List.replicate c.assoc Slot.absent) }

/-- The names of the caches (50_cache.md R100, R120). -/
inductive Level where
  | l1 | l2
  deriving DecidableEq, Repr

/-- The kind of a trace event; `sw` is the write event (50_cache.md R113, R120). -/
inductive EventKind where
  | hit | miss | sw
  deriving DecidableEq, Repr

/-- A trace event `(level, kind, pc, addr, line)` (50_cache.md R120). -/
structure Event where
  level : Level
  kind : EventKind
  pc : Word
  addr : Nat
  line : Nat
  deriving DecidableEq, Repr

end Sys2Proof.Machine
end

