-- ==== Sys2Proof/Machine/State.lean ====
section
/-! DEFINITION. The state of the CORE (10_state.md), the reasons it stops, and the state after reset. -/

namespace Sys2Proof.Machine

/-- The two run-time faults of 60_exceptions.md R130, each with the `info` it records. -/
inductive Fault where
  /-- `FetchRangeFault(pc)`, code 1: raised by the fetch of a step with `pc >= MEM_SIZE`
  (60_exceptions.md R133). Safe: the source gives no behaviour there (92_eei_decisions.md D9). -/
  | fetchRange (pc : Word)
  /-- `AddressRangeFault(ea)`, code 2: raised by lw and sw when the effective address is outside
  `0 .. MEM_SIZE-1` (60_exceptions.md R134). Safe: the source leaves it undefined (D10). -/
  | addressRange (ea : Int)
  deriving DecidableEq, Repr

/-- Why a machine that has not faulted takes no step, or why none is built. No instruction's meaning
answers with any of these. -/
inductive Refusal where
  /-- Raised by `exec` for an instruction without a meaning. Every instruction has one, so it is never
  raised. Safe. -/
  | notModelled (mnemonic : String)
  /-- Raised by `step` when the status is `halted`: the run has ended normally and the CORE takes no
  further step (44_jump.md R95). Safe. -/
  | halted
  /-- Raised by `step` and `boot` for a configuration that 70_reset_and_hazards.md R155 rejects. Safe. -/
  | invalidConfiguration
  /-- Raised by `boot` for an image of more than `MEM_SIZE` words (70_reset_and_hazards.md R152). Safe. -/
  | imageTooLarge
  deriving DecidableEq, Repr

/-- The run status of 10_state.md R23. -/
inductive Status where
  | running
  | halted
  | faulted (fault : Fault)
  deriving DecidableEq, Repr

/-- One listed memory word: its word address and its value. The memory is word-addressed and has no
byte view (20_memory.md R33), so a cell is a word and not the host's byte (log entry 3). -/
abbrev WordCell := Nat × Word

/-- The MachineImage of 10_state.md R16: the words that are not 0, at strictly rising addresses
(`Memory.wf`). An unlisted word is 0 (10_state.md R25). -/
abbrev Memory := List WordCell

/-- The complete state of the CORE (10_state.md, preamble), and the parameters fixed at reset
(`memSize`, and each cache's `config`; log entry 1). -/
structure State where
  /-- `MEM_SIZE` (00_scope.md R5) -/
  memSize : Nat
  /-- `x[0]` to `x[7]` (10_state.md R10) -/
  regs : Vector Word 8
  /-- the program counter (10_state.md R13) -/
  pc : Word
  /-- the MachineImage (10_state.md R16) -/
  mem : Memory
  /-- the first-level cache (10_state.md R20) -/
  l1 : Cache
  /-- the second-level cache, where one is configured (10_state.md R20) -/
  l2 : Option Cache
  /-- the run status (10_state.md R23) -/
  status : Status
  /-- the events emitted so far, oldest first (10_state.md R24) -/
  trace : List Event
  deriving DecidableEq, Repr

/-- The state of 10_state.md R25 for a configuration and the empty image (`N = 0`). -/
def State.initial (c : Config) : State :=
  { memSize := c.memSize
    regs := Vector.replicate 8 0
    pc := 0
    mem := []
    l1 := emptyCache c.l1
    l2 := c.l2.map emptyCache
    status := .running
    trace := [] }

/-- The machine right after reset (10_state.md R25), with the configuration of `Config.default`
(log entry 2) and the empty image (70_reset_and_hazards.md R152, log entry 11). -/
def State.reset : State := State.initial Config.default

end Sys2Proof.Machine
end

