-- ==== Sys2Proof/Machine/Ops.lean ====
section
/-! DEFINITION. The named operations of 00_scope.md R8 over registers, `pc` and memory; raising a fault
and halting. There is no return from a fault (60_exceptions.md R139), so none is defined. -/

namespace Sys2Proof.Machine

/-- `v mod 2^16`, the non-negative remainder also for a negative `v` (00_scope.md R7). -/
def mod16 (v : Int) : Word := BitVec.ofInt 16 v

/-- The configuration the machine was built with (00_scope.md R5). -/
def State.config (s : State) : Config :=
  { memSize := s.memSize, l1 := s.l1.config, l2 := s.l2.map Cache.config }

/-- Read `x[i]` (00_scope.md R8). No register is hardwired (10_state.md R11). -/
def State.reg (s : State) (i : Reg) : Word := s.regs[i]

/-- Write `x[i]` (10_state.md R12). Register 0 is written like any other (R11). -/
def State.setReg (s : State) (i : Reg) (v : Word) : State := { s with regs := s.regs.set i v }

/-- `pc <- t`, stored mod 2^16 (00_scope.md R8, 10_state.md R14). -/
def State.setPc (s : State) (t : Int) : State := { s with pc := mod16 t }

/-- `pc <- pc + 1` (10_state.md R14). -/
def State.advance (s : State) : State := s.setPc (s.pc.toNat + 1)

/-- The word at address `a`; an unlisted word is 0 (10_state.md R25). -/
def Memory.read (m : Memory) (a : Nat) : Word := (m.lookup a).getD 0

/-- Store `v` at address `a`, and nothing else; a 0 is stored by listing nothing, which keeps the
canonical form. -/
def Memory.write (m : Memory) (a : Nat) (v : Word) : Memory :=
  m.filter (fun c => c.1 < a) ++ (if v = 0 then [] else [(a, v)]) ++ m.filter (fun c => a < c.1)

/-- The canonical form: addresses strictly rising, no listed word 0. -/
def Memory.wf (m : Memory) : Bool :=
  decide (m.Pairwise fun c d => c.1 < d.1) && m.all fun c => c.2 != 0

/-- `0 <= addr < MEM_SIZE`, the check of 20_memory.md R31; the address is not reduced first. -/
def State.inRange (s : State) (addr : Int) : Bool := 0 ≤ addr && addr < s.memSize

/-- `Fetch(pc)`: the word, or none where `FetchRangeFault(pc)` is raised (20_memory.md R30). -/
def State.fetch (s : State) : Option Word :=
  if s.pc.toNat < s.memSize then some (s.mem.read s.pc.toNat) else none

/-- `MemRead(addr, 1)`: the word, or none where `AddressRangeFault(addr)` is raised
(20_memory.md R31). -/
def State.memRead (s : State) (addr : Int) : Option Word :=
  if s.inRange addr then some (s.mem.read addr.toNat) else none

/-- `MemWrite(addr, 1, v)`: the state after the store, or none where `AddressRangeFault(addr)` is raised
(20_memory.md R32). -/
def State.memWrite (s : State) (addr : Int) (v : Word) : Option State :=
  if s.inRange addr then some { s with mem := s.mem.write addr.toNat v } else none

/-- The word `w` put at `pc`, where the next step fetches it (20_memory.md R30): one word of an image load
(70_reset_and_hazards.md R152, log entry 11). A `pc` outside the memory has no word to hold it, and the
state is then left as it is (log entry 18). -/
def State.placeWord (s : State) (w : Word) : State :=
  if s.pc.toNat < s.memSize then { s with mem := s.mem.write s.pc.toNat w } else s

/-- Append one event to the trace (10_state.md R24). -/
def State.emit (s : State) (e : Event) : State := { s with trace := s.trace ++ [e] }

/-- `raise <Fault>(info)`: the status becomes `Faulted(cause, info)` and nothing else changes
(60_exceptions.md R130, R132). Trap entry is termination: nothing is saved, `pc` goes nowhere
(R138). -/
def State.raise (s : State) (f : Fault) : State := { s with status := .faulted f }

/-- `halt`: the status becomes `Halted`; `pc` keeps its value (44_jump.md R95). -/
def State.halt (s : State) : State := { s with status := .halted }

/-- The code column of 60_exceptions.md R130. -/
def faultCode : Fault → Nat
  | .fetchRange _ => 1
  | .addressRange _ => 2

end Sys2Proof.Machine
end

