-- ==== Sys2Proof/Machine/Operands.lean ====
section
/-! DEFINITION. The operand forms: a base register plus displacement, a `pc`-relative target, an
immediate as a 16-bit operand. (Register operands are `State.reg`; an absolute target is itself.) -/

namespace Sys2Proof.Machine

/-- `ea = x[rA] + sext_7(imm7)`, a mathematical integer that nothing masks (42_load_store.md R85). -/
def effectiveAddress (s : State) (rA : Reg) (imm : Int) : Int := (s.reg rA).toNat + imm

/-- `pc + 1 + sext_7(imm7)`, an integer: storing it into `pc` reduces it (43_branch_equal.md R90, R91). -/
def branchTarget (s : State) (imm : Int) : Int := s.pc.toNat + 1 + imm

/-- `sext_7(imm7) mod 2^16`, an immediate as a 16-bit operand (41_two_register_immediate.md R81). -/
def immOperand (imm : Int) : Word := mod16 imm

/-- The link value `(pc + 1) mod 2^16` (44_jump.md R94). -/
def linkValue (s : State) : Word := mod16 (s.pc.toNat + 1)

/-- `LINK_REG` (00_scope.md R5, 44_jump.md R94). -/
def linkReg : Reg := 7

end Sys2Proof.Machine
end

