-- ==== Sys2Proof/Machine/BranchEqual.lean ====
section
/-! DEFINITION. Branch-equal (43_branch_equal.md). -/

namespace Sys2Proof.Machine

/-- `jeq`: taken iff the two registers are equal; the target is stored into `pc` mod 2^16 and checked by
the next fetch (43_branch_equal.md R90, R91). -/
def execJeq (rA rB : Reg) (imm : Int) (s : State) : Host.Outcome State Fault Refusal :=
  .next (if s.reg rA = s.reg rB then s.setPc (branchTarget s imm) else s.advance)

end Sys2Proof.Machine
end

