-- ==== Sys2Proof/Machine/Jump.lean ====
section
/-! DEFINITION. The jump family and the halt condition (44_jump.md). -/

namespace Sys2Proof.Machine

/-- `if imm13 = pc then halt else pc <- imm13`: the comparison is with the whole 16-bit `pc`
(44_jump.md R93, R95). -/
def jumpOrHalt (s : State) (target : Nat) : State :=
  if target = s.pc.toNat then s.halt else s.setPc target

/-- `j` (44_jump.md R93). -/
def execJ (target : Nat) (s : State) : Host.Outcome State Fault Refusal :=
  .next (jumpOrHalt s target)

/-- `jal`: the link register is written first, also when the jump then halts (44_jump.md R94). -/
def execJal (target : Nat) (s : State) : Host.Outcome State Fault Refusal :=
  .next (jumpOrHalt (s.setReg linkReg (linkValue s)) target)

end Sys2Proof.Machine
end

