-- ==== Sys2Proof/Machine/Cache.lean ====
section
/-! DEFINITION. The cache hierarchy of 50_cache.md: address split, one access to one cache, and the access
a load or store makes. -/

namespace Sys2Proof.Machine

/-- `blockNumber = addr / blockSize` (50_cache.md R102). -/
def blockNumber (c : CacheConfig) (addr : Nat) : Nat := addr / c.blockSize

/-- `line = blockNumber % numLines` (50_cache.md R102). -/
def lineOf (c : CacheConfig) (addr : Nat) : Nat := blockNumber c addr % cacheNumLines c

/-- `tag = blockNumber / numLines` (50_cache.md R102). -/
def tagOf (c : CacheConfig) (addr : Nat) : Nat := blockNumber c addr / cacheNumLines c

/-- The residency result of one level (50_cache.md R103). -/
inductive Residency where
  | hit | miss
  deriving DecidableEq, Repr

/-- The slot that holds `tag`, index 0 first; an absent slot matches nothing (50_cache.md R104). -/
def residentIdx (S : CacheSet) (tag : Nat) : Option Nat := S.findIdx? fun sl => sl.tag == some tag

/-- The lowest index of an absent slot (50_cache.md R107). -/
def absentIdx (S : CacheSet) : Option Nat := S.findIdx? fun sl => sl.tag == none

/-- The largest recency of a set. -/
def maxRecency (S : CacheSet) : Nat := S.foldr (fun sl m => max sl.recency m) 0

/-- The victim: the lowest index whose recency is the maximum of the set (50_cache.md R109). -/
def victimIdx (S : CacheSet) : Nat := S.findIdx fun sl => sl.recency == maxRecency S

/-- Add 1 to one slot's recency. -/
def Slot.bump (sl : Slot) : Slot := { sl with recency := sl.recency + 1 }

/-- Case "resident" (50_cache.md R106): slot `i` gets recency 0, every other slot is bumped. -/
def hitSlot (S : CacheSet) (i : Nat) : CacheSet :=
  S.mapIdx fun j sl => if j = i then { sl with recency := 0 } else sl.bump

/-- Case "fill" (50_cache.md R107): slot `i` gets the tag and recency 0, then slots `0 .. i`, `i`
included, are bumped; the slots above are not touched. -/
def fillSlot (S : CacheSet) (i : Nat) (tag : Nat) : CacheSet :=
  (S.set i { tag := some tag, recency := 0 }).mapIdx fun j sl => if j ≤ i then sl.bump else sl

/-- Case "evict" (50_cache.md R108): slot `v` gets the tag and recency 0, then every slot is bumped. -/
def evictSlot (S : CacheSet) (v : Nat) (tag : Nat) : CacheSet :=
  (S.set v { tag := some tag, recency := 0 }).map Slot.bump

/-- One access to one set: exactly one of the three cases, the match test first (50_cache.md R103,
R104). -/
def accessSet (S : CacheSet) (tag : Nat) : Residency × CacheSet :=
  match residentIdx S tag with
  | some i => (.hit, hitSlot S i)
  | none =>
    match absentIdx S with
    | some i => (.miss, fillSlot S i tag)
    | none => (.miss, evictSlot S (victimIdx S) tag)

/-- What one access to one cache answers: `(residency, line)` and the cache afterwards. -/
structure LevelResult where
  residency : Residency
  line : Nat
  cache : Cache
  deriving DecidableEq, Repr

/-- `C.set[line]` (50_cache.md R103). A line that the cache does not have reads as an empty set; no valid
state has one (log entry 10). -/
def Cache.setAt (C : Cache) (line : Nat) : CacheSet := C.sets.getD line []

/-- `LevelAccess(C, addr)` (50_cache.md R103): only the slots of the selected set can change. -/
def levelAccess (C : Cache) (addr : Nat) : LevelResult :=
  let line := lineOf C.config addr
  let r := accessSet (C.setAt line) (tagOf C.config addr)
  { residency := r.1, line := line, cache := { C with sets := C.sets.set line r.2 } }

/-- The kind of event at one level: the residency for a load, always `SW` for a store
(50_cache.md R113). -/
def eventKind (isStore : Bool) (r : Residency) : EventKind :=
  if isStore then .sw else match r with
    | .hit => .hit
    | .miss => .miss

/-- The access of level 1: its state update and its event. -/
def accessL1 (s : State) (pc : Word) (addr : Nat) (isStore : Bool) : State :=
  let r := levelAccess s.l1 addr
  { s with l1 := r.cache }.emit
    { level := .l1, kind := eventKind isStore r.residency, pc := pc, addr := addr, line := r.line }

/-- The access of level 2, where it exists: its state update and its event. -/
def accessL2 (s : State) (pc : Word) (addr : Nat) (isStore : Bool) : State :=
  match s.l2 with
  | none => s
  | some c2 =>
    let r := levelAccess c2 addr
    { s with l2 := some r.cache }.emit
      { level := .l2, kind := eventKind isStore r.residency, pc := pc, addr := addr, line := r.line }

/-- `CacheAccess(pc, addr, isStore)` (50_cache.md R115): L1, then L2 unless the L1 event is a `HIT`
(R116, R117). Nothing is returned to the engine. -/
def cacheAccess (s : State) (pc : Word) (addr : Nat) (isStore : Bool) : State :=
  let s1 := accessL1 s pc addr isStore
  if eventKind isStore (levelAccess s.l1 addr).residency = .hit then s1
  else accessL2 s1 pc addr isStore

end Sys2Proof.Machine
end

