-- ==== Sys2Proof/Machine/LoadStore.lean ====
section
/-! DEFINITION. The load/store family (42_load_store.md). The order is that of 20_memory.md R43: the range
check and the memory access, the register write, the cache access, the `pc` update. An access that
raises `AddressRangeFault` does none of these. -/

namespace Sys2Proof.Machine

/-- `lw` (42_load_store.md R86): the destination may be the base, whose old value gives the address. -/
def execLw (rB rA : Reg) (imm : Int) (s : State) : Host.Outcome State Fault Refusal :=
  let ea := effectiveAddress s rA imm
  match s.memRead ea with
  | none => .next (s.raise (.addressRange ea))
  | some v => .next (cacheAccess (s.setReg rB v) s.pc ea.toNat false).advance

/-- `sw` (42_load_store.md R87). -/
def execSw (rB rA : Reg) (imm : Int) (s : State) : Host.Outcome State Fault Refusal :=
  let ea := effectiveAddress s rA imm
  match s.memWrite ea (s.reg rB) with
  | none => .next (s.raise (.addressRange ea))
  | some s' => .next (cacheAccess s' s.pc ea.toNat true).advance

end Sys2Proof.Machine
end

