-- ==== Sys2Proof/Machine/Flags.lean ====
section
/-! DEFINITION. The machine has no flags and no condition codes (10_state.md R17): a comparison writes 0
or 1 into a register, or decides a branch inside one instruction. -/

namespace Sys2Proof.Machine

/-- `1 if a <u b else 0` (40_three_register.md R74, R77 item 4): the comparison is unsigned, as is every
ordering comparison of this machine (00_scope.md R7). -/
def setLess (a b : Word) : Word := if a.toNat < b.toNat then 1 else 0

end Sys2Proof.Machine
end

