-- ==== Sys2Proof/Machine/ThreeRegister.lean ====
section
/-! DEFINITION. The three-register family (40_three_register.md). No instruction of it accesses memory or
a cache, emits an event or raises a fault. -/

namespace Sys2Proof.Machine

/-- `x[r] <- v; pc <- pc + 1`: the sources are read before (10_state.md R12). -/
def writeResult (s : State) (r : Reg) (v : Word) : State := (s.setReg r v).advance

/-- `add`: wraparound sum (40_three_register.md R70). -/
def execAdd (rD rA rB : Reg) (s : State) : Host.Outcome State Fault Refusal :=
  .next (writeResult s rD (mod16 ((s.reg rA).toNat + (s.reg rB).toNat)))

/-- `sub`: wraparound difference, `x[rA]` the minuend (40_three_register.md R71). -/
def execSub (rD rA rB : Reg) (s : State) : Host.Outcome State Fault Refusal :=
  .next (writeResult s rD (mod16 ((s.reg rA).toNat - (s.reg rB).toNat)))

/-- `or`: bitwise inclusive or (40_three_register.md R72). -/
def execOr (rD rA rB : Reg) (s : State) : Host.Outcome State Fault Refusal :=
  .next (writeResult s rD (s.reg rA ||| s.reg rB))

/-- `and`: bitwise and (40_three_register.md R73). -/
def execAnd (rD rA rB : Reg) (s : State) : Host.Outcome State Fault Refusal :=
  .next (writeResult s rD (s.reg rA &&& s.reg rB))

/-- `slt`: set if less than, unsigned (40_three_register.md R74). -/
def execSlt (rD rA rB : Reg) (s : State) : Host.Outcome State Fault Refusal :=
  .next (writeResult s rD (setLess (s.reg rA) (s.reg rB)))

/-- `jr`: `pc <- x[rA]`, the whole 16-bit value, no increment; it never halts (40_three_register.md
R75). -/
def execJr (rA : Reg) (s : State) : Host.Outcome State Fault Refusal :=
  .next (s.setPc (s.reg rA).toNat)

/-- A reserved suffix falls through to `pc + 1` (40_three_register.md R76). -/
def reservedNop (s : State) : Host.Outcome State Fault Refusal := .next s.advance

/-- Suffix `0101` (40_three_register.md R76). -/
def execReservedNop0101 (s : State) : Host.Outcome State Fault Refusal := reservedNop s

/-- Suffixes `011x` (40_three_register.md R76). -/
def execReservedNop011x (s : State) : Host.Outcome State Fault Refusal := reservedNop s

/-- Suffix `1001` (40_three_register.md R76). -/
def execReservedNop1001 (s : State) : Host.Outcome State Fault Refusal := reservedNop s

/-- Suffixes `101x` (40_three_register.md R76). -/
def execReservedNop101x (s : State) : Host.Outcome State Fault Refusal := reservedNop s

/-- Suffixes `11xx` (40_three_register.md R76). -/
def execReservedNop11xx (s : State) : Host.Outcome State Fault Refusal := reservedNop s

end Sys2Proof.Machine
end

