-- ==== Sys2Proof/Machine/TwoRegisterImmediate.lean ====
section
/-! DEFINITION. The two-register-immediate family (41_two_register_immediate.md). -/

namespace Sys2Proof.Machine

/-- `addi`: add immediate, wraparound (41_two_register_immediate.md R80). -/
def execAddi (rB rA : Reg) (imm : Int) (s : State) : Host.Outcome State Fault Refusal :=
  .next (writeResult s rB (mod16 ((s.reg rA).toNat + imm)))

/-- `slti`: the immediate is reduced mod 2^16 first, then compared unsigned
(41_two_register_immediate.md R81). -/
def execSlti (rB rA : Reg) (imm : Int) (s : State) : Host.Outcome State Fault Refusal :=
  .next (writeResult s rB (setLess (s.reg rA) (immOperand imm)))

end Sys2Proof.Machine
end

