-- ==== Sys2Proof/Machine/Dispatch.lean ====
section
/-! DEFINITION. One arm per instruction, each a direct call of its meaning. -/

namespace Sys2Proof.Machine

def exec (i : Instr) (s : State) : Host.Outcome State Fault Refusal :=
  match i with
  | .add rD rA rB => Sys2Proof.Machine.execAdd rD rA rB s
  | .sub rD rA rB => Sys2Proof.Machine.execSub rD rA rB s
  | .or rD rA rB => Sys2Proof.Machine.execOr rD rA rB s
  | .and rD rA rB => Sys2Proof.Machine.execAnd rD rA rB s
  | .slt rD rA rB => Sys2Proof.Machine.execSlt rD rA rB s
  | .jr rA _ => Sys2Proof.Machine.execJr rA s
  | .reservedNop0101 _ => Sys2Proof.Machine.execReservedNop0101 s
  | .reservedNop011x _ _ => Sys2Proof.Machine.execReservedNop011x s
  | .reservedNop1001 _ => Sys2Proof.Machine.execReservedNop1001 s
  | .reservedNop101x _ _ => Sys2Proof.Machine.execReservedNop101x s
  | .reservedNop11xx _ _ => Sys2Proof.Machine.execReservedNop11xx s
  | .addi rB rA imm => Sys2Proof.Machine.execAddi rB rA imm s
  | .slti rB rA imm => Sys2Proof.Machine.execSlti rB rA imm s
  | .lw rB rA imm => Sys2Proof.Machine.execLw rB rA imm s
  | .sw rB rA imm => Sys2Proof.Machine.execSw rB rA imm s
  | .jeq rA rB imm => Sys2Proof.Machine.execJeq rA rB imm s
  | .j target => Sys2Proof.Machine.execJ target s
  | .jal target => Sys2Proof.Machine.execJal target s

end Sys2Proof.Machine
end

