-- ==== Sys2Proof/Machine/Step.lean ====
section
/-! DEFINITION. One step of the machine (70_reset_and_hazards.md R157), and how a test places one
instruction where the next step fetches. -/

namespace Sys2Proof.Machine

/-- The step loop of 70_reset_and_hazards.md R157, for a valid configuration (R155): with the status
`Running`, fetch, decode and execute, or raise `FetchRangeFault`. In `Halted` and `Faulted` the CORE
takes no step (10_state.md R23): a halted machine refuses, a faulted one reports the fault, which is never
cleared (60_exceptions.md R132). -/
def step (s : State) : Host.Outcome State Fault Refusal :=
  if configValid s.config then
    match s.status with
    | .halted => .refused .halted
    | .faulted f => .fault f
    | .running =>
      match s.fetch with
      | none => .next (s.raise (.fetchRange s.pc))
      | some w => exec (decodeWord w) s
  else .refused .invalidConfiguration

/-- The state whose next step fetches the one-word instruction with the bits `w` (all rows of the table
are one word, 30_encoding.md R50, so `nbits` is 16 and no word follows). -/
def State.withFetchWord (s : State) (_nbits w : Nat) : State := s.placeWord (BitVec.ofNat 16 w)

end Sys2Proof.Machine
end

