-- ==== Sys2Proof/Machine/Assembler.lean ====
section
/-! DEFINITION. The notation of the spec's listings (30_encoding.md R62) and its one pseudo-instruction
(R63). The machine does not use it; the text form of a line is outside the model. -/

namespace Sys2Proof.Machine

/-- One line of a listing, its operands in the order they are written (30_encoding.md R62): the destination
first; the branch and jump operands are target addresses. -/
inductive AsmLine where
  | add (d a b : Reg)
  | sub (d a b : Reg)
  | or (d a b : Reg)
  | and (d a b : Reg)
  | slt (d a b : Reg)
  | jr (a : Reg)
  | addi (d s : Reg) (imm : Int)
  | slti (d s : Reg) (imm : Int)
  | lw (d : Reg) (imm : Int) (base : Reg)
  | sw (s : Reg) (imm : Int) (base : Reg)
  | jeq (a b : Reg) (target : Int)
  | j (target : Nat)
  | jal (target : Nat)
  /-- a data word with value `v mod 2^16` -/
  | word (v : Int)
  /-- the idiom `j here` (R63) -/
  | halt
  deriving DecidableEq, Repr

/-- The word of an instruction that has an encoding. -/
def encodeChecked (i : Instr) : Option Word := if i.wellFormed then some (encode i) else none

/-- The word that a line at address `here` assembles to, where the ranges of 30_encoding.md R62 and R63
allow it. Ignored fields are zero (R60). -/
def assemble (here : Nat) : AsmLine → Option Word
  | .add d a b => encodeChecked (.add d a b)
  | .sub d a b => encodeChecked (.sub d a b)
  | .or d a b => encodeChecked (.or d a b)
  | .and d a b => encodeChecked (.and d a b)
  | .slt d a b => encodeChecked (.slt d a b)
  | .jr a => encodeChecked (.jr a 0)
  | .addi d s imm => encodeChecked (.addi d s imm)
  | .slti d s imm => encodeChecked (.slti d s imm)
  | .lw d imm base => encodeChecked (.lw d base imm)
  | .sw s imm base => encodeChecked (.sw s base imm)
  | .jeq a b target => encodeChecked (.jeq a b (target - (here + 1)))
  | .j target => encodeChecked (.j target)
  | .jal target => encodeChecked (.jal target)
  | .word v => some (BitVec.ofInt 16 v)
  | .halt => encodeChecked (.j here)

end Sys2Proof.Machine
end

