-- ==== Sys2Proof/Machine/Boot.lean ====
section
/-! DEFINITION. The creation of the machine from its two input interfaces: the configuration integers and
the image (00_scope.md R9; 70_reset_and_hazards.md R150 to R152, R155; 50_cache.md R101), and the
configuration report that it makes available before the first step (R121). -/

namespace Sys2Proof.Machine

/-- Three integers as a cache configuration, where they are a valid triple (00_scope.md R6): positive, and
the size an exact multiple of `associativity * blockSize`. -/
def cacheTriple (size assoc blockSize : Int) : Option CacheConfig :=
  let c : CacheConfig := { size := size.toNat, assoc := assoc.toNat, blockSize := blockSize.toNat }
  if cacheConfigValid c then some c else none

/-- Three integers configure L1 only, six configure L1 and L2; any other count, or an invalid triple, is a
configuration error (50_cache.md R101, 70_reset_and_hazards.md R155). -/
def cacheConfigs : List Int → Option (CacheConfig × Option CacheConfig)
  | [s1, a1, b1] => (cacheTriple s1 a1 b1).map fun c1 => (c1, none)
  | [s1, a1, b1, s2, a2, b2] =>
    match cacheTriple s1 a1 b1, cacheTriple s2 a2 b2 with
    | some c1, some c2 => some (c1, some c2)
    | _, _ => none
  | _ => none

/-- The image's words as memory cells: word `k` of the list at address `start + k`
(70_reset_and_hazards.md R152). A word 0 is not listed, as the canonical form asks. -/
def imageCells : Nat → List Word → Memory
  | _, [] => []
  | start, w :: ws => if w = 0 then imageCells (start + 1) ws else (start, w) :: imageCells (start + 1) ws

/-- Item 1 of 70_reset_and_hazards.md R151: the configuration, where it is valid (R155). A `MEM_SIZE` above
the bound of 10_state.md R14 is refused as a configuration (log entry 8). -/
def bootConfig (memSize : Nat) (cacheInts : List Int) : Option Config :=
  match cacheConfigs cacheInts with
  | none => none
  | some (l1, l2) =>
    let c : Config := { memSize := memSize, l1 := l1, l2 := l2 }
    if configValid c then some c else none

/-- One entry of the configuration report, `(name, size, associativity, blockSize, numLines)`
(50_cache.md R121). -/
structure CacheReport where
  name : Level
  size : Nat
  assoc : Nat
  blockSize : Nat
  numLines : Nat
  deriving DecidableEq, Repr

/-- The report of one cache. -/
def reportOf (name : Level) (c : CacheConfig) : CacheReport :=
  { name := name, size := c.size, assoc := c.assoc, blockSize := c.blockSize,
    numLines := cacheNumLines c }

/-- The configuration report: one entry per configured cache, L1 before L2; an invalid configuration has
none (50_cache.md R121). It is not part of the trace. -/
def configReport (c : Config) : Option (List CacheReport) :=
  if configValid c then some (reportOf .l1 c.l1 :: (c.l2.map (reportOf .l2)).toList) else none

/-- What the reset sequence yields: the configuration report, where it gets as far, and the machine before
its first step, or why there is none (70_reset_and_hazards.md R151). -/
structure BootResult where
  report : Option (List CacheReport)
  outcome : Except Refusal State
  deriving DecidableEq, Repr

/-- Items 3 and 4 of 70_reset_and_hazards.md R151: place the image, of at most `MEM_SIZE` words (R152), and
set the registers, `pc`, status and trace (10_state.md R25). -/
def bootState (c : Config) (image : List Word) : Except Refusal State :=
  if image.length ≤ c.memSize then .ok { State.initial c with mem := imageCells 0 image }
  else .error .imageTooLarge

/-- The reset sequence of 70_reset_and_hazards.md R151. An invalid configuration aborts before the report
(R155, 50_cache.md R121); the image is taken after it, so that an image that does not fit is refused with the
report already made (the spec's order, decision D18). -/
def boot (memSize : Nat) (cacheInts : List Int) (image : List Word) : BootResult :=
  match bootConfig memSize cacheInts with
  | none => { report := none, outcome := .error .invalidConfiguration }
  | some c => { report := configReport c, outcome := bootState c image }

end Sys2Proof.Machine
end

