-- ==== Sys2Proof/Safety.lean ====
section
/-! DEFINITION. The terms in which claims are made: well-formed caches (10_state.md R20, R21), events
(50_cache.md R120) and run status (60_exceptions.md R130), the invariant of every reachable state, what an
instruction leaves unchanged, the view that hides the caches (10_state.md R22), and the whole-set fill that
50_cache.md R111 compares with. -/

namespace Sys2Proof.Machine

/-- A well-formed set (10_state.md R20, R21 items 1 and 2): exactly `assoc` slots, no tag held twice, and
the slots that hold a tag form a prefix. -/
abbrev SetOk (assoc : Nat) (S : CacheSet) : Prop :=
  S.length = assoc ∧ (S.filterMap Slot.tag).Nodup ∧
    S.Pairwise fun earlier later => later.tag.isSome → earlier.tag.isSome

/-- A well-formed cache: `numLines` well-formed sets (10_state.md R20). -/
abbrev CacheOk (C : Cache) : Prop :=
  C.sets.length = cacheNumLines C.config ∧ ∀ S ∈ C.sets, SetOk C.config.assoc S

/-- The configuration of a level, where the level exists. -/
def levelConfig (s : State) : Level → Option CacheConfig
  | .l1 => some s.l1.config
  | .l2 => s.l2.map Cache.config

/-- The field ranges of 50_cache.md R120: `pc` and `addr` inside memory, the level present, `line` the set
index of `addr` there. -/
abbrev EventOk (s : State) (e : Event) : Prop :=
  e.pc.toNat < s.memSize ∧ e.addr < s.memSize ∧
    ∃ c ∈ levelConfig s e.level, e.line = lineOf c e.addr ∧ e.line < cacheNumLines c

/-- The `info` ranges of 60_exceptions.md R130: a `FetchRangeFault` records the `pc`, which is outside
memory; an `AddressRangeFault` records an effective address outside memory, and its instruction's `pc` is
inside. -/
def FaultOk (s : State) : Fault → Prop
  | .fetchRange p => p = s.pc ∧ s.memSize ≤ p.toNat
  | .addressRange ea =>
    s.pc.toNat < s.memSize ∧ ((-64 ≤ ea ∧ ea ≤ -1) ∨ ((s.memSize : Int) ≤ ea ∧ ea ≤ 65598))

/-- What the status says of the state: a halted machine stands at an absolute jump to its own address
(44_jump.md R95); a faulted one records a fault of 60_exceptions.md R130. -/
def StatusOk (s : State) : Prop :=
  match s.status with
  | .running => True
  | .halted => s.pc.toNat < s.memSize ∧
      (decodeWord (s.mem.read s.pc.toNat) = .j s.pc.toNat ∨
        decodeWord (s.mem.read s.pc.toNat) = .jal s.pc.toNat)
  | .faulted f => FaultOk s f

/-- The listed words lie inside the memory (10_state.md R16). -/
abbrev MemoryInRange (s : State) : Prop := ∀ c ∈ s.mem, c.1 < s.memSize

/-- What holds of every state of a run: a valid configuration, a canonical memory inside its bounds,
well-formed caches, events and status. -/
structure Inv (s : State) : Prop where
  config : configValid s.config = true
  memory : s.mem.wf = true
  bounds : MemoryInRange s
  l1 : CacheOk s.l1
  l2 : ∀ C ∈ s.l2, CacheOk C
  trace : ∀ e ∈ s.trace, EventOk s e
  status : StatusOk s

/-- The memory is as before: the same words, and every read answers as before. -/
abbrev SameMemory (s t : State) : Prop :=
  t.memSize = s.memSize ∧ t.mem = s.mem ∧ ∀ a : Int, t.memRead a = s.memRead a

/-- The caches are as before and no event was emitted. -/
abbrev SameCaches (s t : State) : Prop := t.l1 = s.l1 ∧ t.l2 = s.l2 ∧ t.trace = s.trace

/-- Every register but those in `rs` is as before. -/
abbrev SameRegsBut (rs : List Reg) (s t : State) : Prop := ∀ r, r ∉ rs → t.reg r = s.reg r

/-- Only the registers in `rs` and the `pc` may differ: memory, caches, trace and status are as before. -/
abbrev OnlyRegsAndPc (rs : List Reg) (s t : State) : Prop :=
  SameRegsBut rs s t ∧ SameMemory s t ∧ SameCaches s t ∧ t.status = s.status

/-- The levels whose events an executed instruction emits, in order (50_cache.md R118). -/
def eventLevels (i : Instr) (s : State) : List Level :=
  match i with
  | .lw _ rA imm =>
    if s.inRange (effectiveAddress s rA imm) then
      if s.l2 = none ∨ (levelAccess s.l1 (effectiveAddress s rA imm).toNat).residency = .hit then [.l1]
      else [.l1, .l2]
    else []
  | .sw _ rA imm =>
    if s.inRange (effectiveAddress s rA imm) then
      if s.l2 = none then [.l1] else [.l1, .l2]
    else []
  | _ => []

/-- What the access of a load or store does to the caches and the trace (50_cache.md R115 to R118), from
`s` to `t`, for an instruction at `s.pc`: one access and event at L1; unless the L1 event is a `HIT`, one
at L2 where it exists; no other change. -/
def CachesAccessed (s t : State) (addr : Nat) (isStore : Bool) : Prop :=
  let r1 := levelAccess s.l1 addr
  let k1 := eventKind isStore r1.residency
  let e1 : Event := { level := .l1, kind := k1, pc := s.pc, addr := addr, line := r1.line }
  t.l1 = r1.cache ∧
    match s.l2 with
    | none => t.l2 = none ∧ t.trace = s.trace ++ [e1]
    | some c2 =>
      if k1 = .hit then t.l2 = some c2 ∧ t.trace = s.trace ++ [e1]
      else
        let r2 := levelAccess c2 addr
        let e2 : Event :=
          { level := .l2, kind := eventKind isStore r2.residency, pc := s.pc, addr := addr,
            line := r2.line }
        t.l2 = some r2.cache ∧ t.trace = s.trace ++ [e1, e2]

/-- The register an instruction writes, where it writes one (the table of 10_state.md R12). -/
def destReg : Instr → Option Reg
  | .add rD _ _ => some rD
  | .sub rD _ _ => some rD
  | .or rD _ _ => some rD
  | .and rD _ _ => some rD
  | .slt rD _ _ => some rD
  | .jr _ _ => none
  | .reservedNop0101 _ => none
  | .reservedNop011x _ _ => none
  | .reservedNop1001 _ => none
  | .reservedNop101x _ _ => none
  | .reservedNop11xx _ _ => none
  | .addi rB _ _ => some rB
  | .slti rB _ _ => some rB
  | .lw rB _ _ => some rB
  | .sw _ _ _ => none
  | .jeq _ _ _ => none
  | .j _ => none
  | .jal _ => some 7

/-- The state a program can see: everything but the caches and the trace (10_state.md R22). -/
structure ProgramView where
  memSize : Nat
  regs : Vector Word 8
  pc : Word
  mem : Memory
  status : Status
  deriving DecidableEq, Repr

/-- The program's view of a state. -/
def State.view (s : State) : ProgramView :=
  { memSize := s.memSize, regs := s.regs, pc := s.pc, mem := s.mem, status := s.status }

/-- Two outcomes that a program cannot tell apart. -/
def SameOutcomeView : Host.Outcome State Fault Refusal → Host.Outcome State Fault Refusal → Prop
  | .next s, .next t => s.view = t.view
  | .fault f, .fault g => f = g
  | .refused r, .refused q => r = q
  | _, _ => False

/-- The fill of a canonical policy, which bumps the whole set (what 50_cache.md R111 compares R107 with). -/
def fillSlotWhole (S : CacheSet) (i : Nat) (tag : Nat) : CacheSet :=
  (S.set i { tag := some tag, recency := 0 }).map Slot.bump

/-- One access to one set with the whole-set fill. -/
def accessSetWhole (S : CacheSet) (tag : Nat) : Residency × CacheSet :=
  match residentIdx S tag with
  | some i => (.hit, hitSlot S i)
  | none =>
    match absentIdx S with
    | some i => (.miss, fillSlotWhole S i tag)
    | none => (.miss, evictSlot S (victimIdx S) tag)

/-- The residency results of a sequence of accesses to one set, in order. -/
def residencies (access : CacheSet → Nat → Residency × CacheSet) : CacheSet → List Nat → List Residency
  | _, [] => []
  | S, tag :: tags => (access S tag).1 :: residencies access (access S tag).2 tags

/-- The residency results of a sequence of accesses to one cache, in order. -/
def levelResidencies : Cache → List Nat → List Residency
  | _, [] => []
  | C, addr :: addrs => (levelAccess C addr).residency :: levelResidencies (levelAccess C addr).cache addrs

/-- The cache after a sequence of accesses. -/
def levelAccesses (C : Cache) (addrs : List Nat) : Cache :=
  addrs.foldl (fun C addr => (levelAccess C addr).cache) C

/-- Every slot of a cache is absent with recency 0, as after reset (10_state.md R25). -/
abbrev CacheAbsent (C : Cache) : Prop := ∀ S ∈ C.sets, ∀ sl ∈ S, sl.tag = none ∧ sl.recency = 0

/-- A valid triple of integers (00_scope.md R6). -/
abbrev ValidTriple (size assoc blockSize : Int) : Prop :=
  0 < size ∧ 0 < assoc ∧ 0 < blockSize ∧ assoc * blockSize ∣ size

/-- A valid list of configuration integers (70_reset_and_hazards.md R155). -/
def ValidInts (ints : List Int) : Prop :=
  (∃ s a b, ints = [s, a, b] ∧ ValidTriple s a b) ∨
    ∃ s1 a1 b1 s2 a2 b2, ints = [s1, a1, b1, s2, a2, b2] ∧ ValidTriple s1 a1 b1 ∧ ValidTriple s2 a2 b2

end Sys2Proof.Machine
end

