-- ==== Sys2Proof/Certificates/Slice0/Obligations.lean ====
section
/-! DEFINITION. The statements for the provers. A rule is cited by its number; a statement whose clause the
spec marks as its own decision (92_eei_decisions.md D<n>) or inference names that sentence, and one that rests
on a choice of the model names the log entry. -/

open Sys2Proof Sys2Proof.Machine

/-! Encoding -/

/-- Decode after encode: no operand bit of a well-formed instruction is dropped (30_encoding.md R52 to R54,
R58; the field places are the spec's decisions D1 to D6). -/
def Obligations.DecodeOfEncode : Prop :=
  ∀ i : Instr, i.wellFormed = true → decodeWord (encode i) = i

/-- Encode after decode: every one of the 65536 words decodes to a well-formed instruction that has that
very word as its encoding (30_encoding.md R58, R61; ignored bits are kept, log entry 9). -/
def Obligations.EncodeOfDecode : Prop :=
  ∀ w : Word, (decodeWord w).wellFormed = true ∧ encode (decodeWord w) = w

/-- A word is of row `o` of the opcode table iff `w AND mask = match`, and the decoder picks that row: so the
rows exclude each other and cover all words (30_encoding.md R57; the values are decisions D1 to D6). -/
def Obligations.DecodedRowIsTheOnlyMatch : Prop :=
  ∀ (w : Word) (o : Opcode), (decodeWord w).opcode = o ↔ w &&& o.mask = o.pattern

/-- The words of the examples of the instruction rules (40_three_register.md to 44_jump.md), one per
instruction, decode to the instructions they stand for. -/
def Obligations.ExampleWordsDecode : Prop :=
  decodeWord 0x0530 = .add 3 1 2 ∧ decodeWord 0x0531 = .sub 3 1 2 ∧
  decodeWord 0x0532 = .or 3 1 2 ∧ decodeWord 0x0533 = .and 3 1 2 ∧
  decodeWord 0x0534 = .slt 3 1 2 ∧ decodeWord 0x1408 = .jr 5 0 ∧
  decodeWord 0x000F = .reservedNop11xx 0 3 ∧ decodeWord 0x2505 = .addi 2 1 5 ∧
  decodeWord 0xE57F = .slti 2 1 (-1) ∧ decodeWord 0x8503 = .lw 2 1 3 ∧
  decodeWord 0xA503 = .sw 2 1 3 ∧ decodeWord 0xC503 = .jeq 1 2 3 ∧
  decodeWord 0x4064 = .j 100 ∧ decodeWord 0x6064 = .jal 100

/-- The value of a 7-bit immediate (30_encoding.md R56): `imm7` below 64, `imm7 - 128` from 64 on;
equivalently the low six bits less 64 times the top bit; the range is `-64 .. 63`. -/
def Obligations.ImmediateFieldValue : Prop :=
  ∀ u : BitVec 7,
    (u.getLsbD 6 = false → sext7 u = u.toNat ∧ 0 ≤ sext7 u ∧ sext7 u ≤ 63) ∧
    (u.getLsbD 6 = true → sext7 u = u.toNat - 128 ∧ -64 ≤ sext7 u ∧ sext7 u ≤ -1) ∧
    sext7 u = (u.toNat % 64 : Nat) - 64 * (if u.getLsbD 6 then 1 else 0)

/-! The effect of each instruction: its encoding line, that it answers a next state, what that state holds,
and what it leaves unchanged. The encoding line is the rule's own; that the fields and suffixes stand there is
the spec's decision D1 to D6, and the conclusion about the state does not rest on it. -/

/-- `add`: wraparound sum (40_three_register.md R70). -/
def Obligations.AddEffect : Prop :=
  ∀ (rD rA rB : Reg) (s : State),
    decodeWord (0b000#3 ++ regBits rA ++ regBits rB ++ regBits rD ++ 0b0000#4) = .add rD rA rB ∧
    ∃ t, exec (.add rD rA rB) s = .next t ∧
      (t.reg rD).toNat = ((s.reg rA).toNat + (s.reg rB).toNat) % 65536 ∧
      t.pc.toNat = (s.pc.toNat + 1) % 65536 ∧ OnlyRegsAndPc [rD] s t

/-- `sub`: wraparound difference (40_three_register.md R71; that `x[rA]` is the minuend is the spec's decision
D4). -/
def Obligations.SubEffect : Prop :=
  ∀ (rD rA rB : Reg) (s : State),
    decodeWord (0b000#3 ++ regBits rA ++ regBits rB ++ regBits rD ++ 0b0001#4) = .sub rD rA rB ∧
    ∃ t, exec (.sub rD rA rB) s = .next t ∧
      ((t.reg rD).toNat : Int) = ((s.reg rA).toNat - (s.reg rB).toNat : Int) % 65536 ∧
      t.pc.toNat = (s.pc.toNat + 1) % 65536 ∧ OnlyRegsAndPc [rD] s t

/-- `or`: bit by bit over the 16 bits (40_three_register.md R72). -/
def Obligations.OrEffect : Prop :=
  ∀ (rD rA rB : Reg) (s : State),
    decodeWord (0b000#3 ++ regBits rA ++ regBits rB ++ regBits rD ++ 0b0010#4) = .or rD rA rB ∧
    ∃ t, exec (.or rD rA rB) s = .next t ∧
      (∀ k, (t.reg rD).getLsbD k = ((s.reg rA).getLsbD k || (s.reg rB).getLsbD k)) ∧
      t.pc.toNat = (s.pc.toNat + 1) % 65536 ∧ OnlyRegsAndPc [rD] s t

/-- `and`: bit by bit over the 16 bits (40_three_register.md R73). -/
def Obligations.AndEffect : Prop :=
  ∀ (rD rA rB : Reg) (s : State),
    decodeWord (0b000#3 ++ regBits rA ++ regBits rB ++ regBits rD ++ 0b0011#4) = .and rD rA rB ∧
    ∃ t, exec (.and rD rA rB) s = .next t ∧
      (∀ k, (t.reg rD).getLsbD k = ((s.reg rA).getLsbD k && (s.reg rB).getLsbD k)) ∧
      t.pc.toNat = (s.pc.toNat + 1) % 65536 ∧ OnlyRegsAndPc [rD] s t

/-- `slt`: 1 if less, compared unsigned, else 0 (40_three_register.md R74). -/
def Obligations.SltEffect : Prop :=
  ∀ (rD rA rB : Reg) (s : State),
    decodeWord (0b000#3 ++ regBits rA ++ regBits rB ++ regBits rD ++ 0b0100#4) = .slt rD rA rB ∧
    ∃ t, exec (.slt rD rA rB) s = .next t ∧
      (t.reg rD).toNat = (if (s.reg rA).toNat < (s.reg rB).toNat then 1 else 0) ∧
      t.pc.toNat = (s.pc.toNat + 1) % 65536 ∧ OnlyRegsAndPc [rD] s t

/-- `jr`: the `pc` takes the whole register value, no increment, whatever the ignored bits; no register is
written and the status does not change, also when the target is the jr itself (40_three_register.md R75; the
source register's field is the spec's decision D4, the ignored bits D5). -/
def Obligations.JrEffect : Prop :=
  ∀ (rA : Reg) (ignored : BitVec 6) (s : State),
    decodeWord (0b000#3 ++ regBits rA ++ ignored ++ 0b1000#4) = .jr rA ignored ∧
    ∃ t, exec (.jr rA ignored) s = .next t ∧ t.pc = s.reg rA ∧ OnlyRegsAndPc [] s t

/-- The five reserved rows, ten suffixes, are no-operations: `pc + 1` and nothing else
(40_three_register.md R76). -/
def Obligations.ReservedWordsAreNops : Prop :=
  (∀ (ignored : BitVec 9) (fn : BitVec 4),
    fn.toNat ∈ [0b0101, 0b0110, 0b0111, 0b1001, 0b1010, 0b1011, 0b1100, 0b1101, 0b1110, 0b1111] →
    (decodeWord (0b000#3 ++ ignored ++ fn)).opcode ∈
      [Opcode.reservedNop0101, .reservedNop011x, .reservedNop1001, .reservedNop101x, .reservedNop11xx]) ∧
  ∀ (i : Instr) (s : State),
    i.opcode ∈
      [Opcode.reservedNop0101, .reservedNop011x, .reservedNop1001, .reservedNop101x, .reservedNop11xx] →
    ∃ t, exec i s = .next t ∧ t.pc.toNat = (s.pc.toNat + 1) % 65536 ∧ OnlyRegsAndPc [] s t

/-- `addi`: add the sign-extended immediate, wraparound (41_two_register_immediate.md R80). -/
def Obligations.AddiEffect : Prop :=
  ∀ (rB rA : Reg) (imm7 : BitVec 7) (s : State),
    decodeWord (0b001#3 ++ regBits rA ++ regBits rB ++ imm7) = .addi rB rA (sext7 imm7) ∧
    ∃ t, exec (.addi rB rA (sext7 imm7)) s = .next t ∧
      ((t.reg rB).toNat : Int) = ((s.reg rA).toNat + sext7 imm7) % 65536 ∧
      t.pc.toNat = (s.pc.toNat + 1) % 65536 ∧ OnlyRegsAndPc [rB] s t

/-- `slti`: 1 if the register is below the immediate reduced mod 2^16, compared unsigned, else 0
(41_two_register_immediate.md R81; the unsigned reading is the spec's decision D15). -/
def Obligations.SltiEffect : Prop :=
  ∀ (rB rA : Reg) (imm7 : BitVec 7) (s : State),
    decodeWord (0b111#3 ++ regBits rA ++ regBits rB ++ imm7) = .slti rB rA (sext7 imm7) ∧
    ∃ t, exec (.slti rB rA (sext7 imm7)) s = .next t ∧
      (t.reg rB).toNat = (if ((s.reg rA).toNat : Int) < sext7 imm7 % 65536 then 1 else 0) ∧
      t.pc.toNat = (s.pc.toNat + 1) % 65536 ∧ OnlyRegsAndPc [rB] s t

/-- `lw` (42_load_store.md R86): inside memory the destination receives the word at the effective address, the
caches are accessed and `pc` advances; outside it `AddressRangeFault` is raised and nothing else changes. -/
def Obligations.LoadEffect : Prop :=
  ∀ (rB rA : Reg) (imm7 : BitVec 7) (s : State),
    decodeWord (0b100#3 ++ regBits rA ++ regBits rB ++ imm7) = .lw rB rA (sext7 imm7) ∧
    (0 ≤ effectiveAddress s rA (sext7 imm7) ∧ effectiveAddress s rA (sext7 imm7) < s.memSize →
      ∃ t, exec (.lw rB rA (sext7 imm7)) s = .next t ∧
        t.reg rB = s.mem.read (effectiveAddress s rA (sext7 imm7)).toNat ∧
        t.pc.toNat = (s.pc.toNat + 1) % 65536 ∧ t.status = s.status ∧
        SameRegsBut [rB] s t ∧ SameMemory s t ∧
        CachesAccessed s t (effectiveAddress s rA (sext7 imm7)).toNat false) ∧
    (effectiveAddress s rA (sext7 imm7) < 0 ∨ s.memSize ≤ effectiveAddress s rA (sext7 imm7) →
      exec (.lw rB rA (sext7 imm7)) s =
        .next { s with status := .faulted (.addressRange (effectiveAddress s rA (sext7 imm7))) })

/-- `sw` (42_load_store.md R87): inside memory the word at the effective address becomes the register's value
and every other word is unchanged, the caches are accessed and `pc` advances; outside it `AddressRangeFault`
is raised and nothing else changes. -/
def Obligations.StoreEffect : Prop :=
  ∀ (rB rA : Reg) (imm7 : BitVec 7) (s : State),
    decodeWord (0b101#3 ++ regBits rA ++ regBits rB ++ imm7) = .sw rB rA (sext7 imm7) ∧
    (0 ≤ effectiveAddress s rA (sext7 imm7) ∧ effectiveAddress s rA (sext7 imm7) < s.memSize →
      ∃ t, exec (.sw rB rA (sext7 imm7)) s = .next t ∧
        t.memRead (effectiveAddress s rA (sext7 imm7)) = some (s.reg rB) ∧
        (∀ a : Int, a ≠ effectiveAddress s rA (sext7 imm7) → t.memRead a = s.memRead a) ∧
        t.memSize = s.memSize ∧
        t.pc.toNat = (s.pc.toNat + 1) % 65536 ∧ t.status = s.status ∧ SameRegsBut [] s t ∧
        CachesAccessed s t (effectiveAddress s rA (sext7 imm7)).toNat true) ∧
    (effectiveAddress s rA (sext7 imm7) < 0 ∨ s.memSize ≤ effectiveAddress s rA (sext7 imm7) →
      exec (.sw rB rA (sext7 imm7)) s =
        .next { s with status := .faulted (.addressRange (effectiveAddress s rA (sext7 imm7))) })

/-- The effective address is the exact integer sum `x[rA] + sext_7(imm7)`, not reduced: it lies in
`-64 .. 65598` and both ends are reached (42_load_store.md R85). -/
def Obligations.EffectiveAddressIsNotMasked : Prop :=
  (∀ (s : State) (rA : Reg) (imm7 : BitVec 7),
    effectiveAddress s rA (sext7 imm7) = (s.reg rA).toNat + sext7 imm7 ∧
    -64 ≤ effectiveAddress s rA (sext7 imm7) ∧ effectiveAddress s rA (sext7 imm7) ≤ 65598) ∧
  (∃ (s : State) (rA : Reg) (imm7 : BitVec 7), effectiveAddress s rA (sext7 imm7) = -64) ∧
  ∃ (s : State) (rA : Reg) (imm7 : BitVec 7), effectiveAddress s rA (sext7 imm7) = 65598

/-- `jeq`: `pc + 1 + sext_7(imm7)` if the registers are equal, else `pc + 1` (43_branch_equal.md R90). -/
def Obligations.BranchEqualEffect : Prop :=
  ∀ (rA rB : Reg) (imm7 : BitVec 7) (s : State),
    decodeWord (0b110#3 ++ regBits rA ++ regBits rB ++ imm7) = .jeq rA rB (sext7 imm7) ∧
    ∃ t, exec (.jeq rA rB (sext7 imm7)) s = .next t ∧
      (t.pc.toNat : Int) =
        (if s.reg rA = s.reg rB then s.pc.toNat + 1 + sext7 imm7 else s.pc.toNat + 1) % 65536 ∧
      OnlyRegsAndPc [] s t

/-- `j`: at its own address the machine halts with nothing else changed, else `pc` becomes the target
(44_jump.md R93). -/
def Obligations.JumpEffect : Prop :=
  ∀ (imm13 : BitVec 13) (s : State),
    decodeWord (0b010#3 ++ imm13) = .j imm13.toNat ∧
    ∃ t, exec (.j imm13.toNat) s = .next t ∧
      if imm13.toNat = s.pc.toNat then t = { s with status := .halted }
      else t.pc.toNat = imm13.toNat ∧ OnlyRegsAndPc [] s t

/-- `jal`: register 7 receives `(pc + 1) mod 2^16`, then as `j`; a halting jal has written the link too
(44_jump.md R94; the link of a halting jal is the spec's decision D7, the place of the link bit D6). -/
def Obligations.JumpAndLinkEffect : Prop :=
  ∀ (imm13 : BitVec 13) (s : State),
    decodeWord (0b011#3 ++ imm13) = .jal imm13.toNat ∧
    ∃ t, exec (.jal imm13.toNat) s = .next t ∧
      (t.reg 7).toNat = (s.pc.toNat + 1) % 65536 ∧
      SameRegsBut [7] s t ∧ SameMemory s t ∧ SameCaches s t ∧
      t.pc.toNat = imm13.toNat ∧
      t.status = if imm13.toNat = s.pc.toNat then .halted else s.status

/-- Every instruction completes in every state (30_encoding.md R58, R61: no word faults by its decoding; a
range fault of lw or sw is a next state with the status `faulted`, log entry 5). -/
def Obligations.EveryInstructionCompletes : Prop :=
  ∀ (i : Instr) (s : State), ∃ t, exec i s = .next t

/-! The step -/

/-- A step runs the decoded instruction (70_reset_and_hazards.md R157): with a valid configuration and the
status running, the word at a `pc` inside memory is decoded and executed, and the step adds nothing. -/
def Obligations.StepRunsDecodedInstruction : Prop :=
  ∀ (s : State) (i : Instr), configValid s.config = true → s.status = .running →
    s.pc.toNat < s.memSize → decodeWord (s.mem.read s.pc.toNat) = i →
    i.wellFormed = true ∧ step s = exec i s

/-- The word that `withFetchWord` places is the one the next step runs, and nothing but the word at `pc`
differs (log entry 11). -/
def Obligations.PlacedWordRunsNext : Prop :=
  ∀ (s : State) (w : Nat), configValid s.config = true → s.status = .running →
    s.pc.toNat < s.memSize → w < 65536 →
    step (s.withFetchWord 16 w) = exec (decodeWord (BitVec.ofNat 16 w)) (s.withFetchWord 16 w) ∧
    (s.withFetchWord 16 w).mem.read s.pc.toNat = BitVec.ofNat 16 w ∧
    (∀ a, a ≠ s.pc.toNat → (s.withFetchWord 16 w).mem.read a = s.mem.read a) ∧
    (s.withFetchWord 16 w) = { s with mem := (s.withFetchWord 16 w).mem }

/-- A fetch outside memory raises `FetchRangeFault(pc)` before any decode, and changes the status only
(20_memory.md R30, 60_exceptions.md R133; the spec's decision D9). -/
def Obligations.FetchOutsideMemoryFaults : Prop :=
  ∀ s : State, configValid s.config = true → s.status = .running → s.memSize ≤ s.pc.toNat →
    step s = .next { s with status := .faulted (.fetchRange s.pc) }

/-- A halted or faulted CORE takes no step (10_state.md R23). That a halted machine answers a refusal and a
faulted one its fault is the model's form (log entries 5 and 6). -/
def Obligations.StoppedMachineTakesNoStep : Prop :=
  ∀ s : State, configValid s.config = true →
    (s.status = .halted → step s = .refused .halted) ∧
    ∀ f, s.status = .faulted f → step s = .fault f

/-- Every state with the status running has a next step (93_implementation_defined.md part 1, last
sentence). -/
def Obligations.RunningMachineAlwaysSteps : Prop :=
  ∀ s : State, configValid s.config = true → s.status = .running → ∃ t, step s = .next t

/-- The memory size and the cache configurations are constant after reset (00_scope.md R5,
50_cache.md R100). -/
def Obligations.ConfigurationNeverChanges : Prop :=
  ∀ s t : State, step s = .next t → t.config = s.config

/-- An instruction changes no register but the one that the table of 10_state.md R12 names. -/
def Obligations.OnlyDestinationRegisterChanges : Prop :=
  ∀ (i : Instr) (s t : State), exec i s = .next t → ∀ r, destReg i ≠ some r → t.reg r = s.reg r

/-- After the first step memory changes only through sw (70_reset_and_hazards.md R152), and a sw changes at
most the word at its effective address (20_memory.md R32). -/
def Obligations.OnlyStoresChangeMemory : Prop :=
  ∀ (i : Instr) (s t : State), exec i s = .next t → ∀ a : Int,
    (∀ rB rA imm, i = .sw rB rA imm → a ≠ effectiveAddress s rA imm) → t.memRead a = s.memRead a

/-- The machine halts in a step iff the word at `pc` is an absolute jump to its own address; `pc` keeps that
address and no step follows (44_jump.md R95; that `pc` keeps the address is the spec's decision D11, the
refusal log entry 6). -/
def Obligations.HaltExactlyAtSelfJump : Prop :=
  ∀ s t : State, step s = .next t →
    (t.status = .halted ↔
      s.pc.toNat < s.memSize ∧
        (decodeWord (s.mem.read s.pc.toNat) = .j s.pc.toNat ∨
          decodeWord (s.mem.read s.pc.toNat) = .jal s.pc.toNat)) ∧
    (t.status = .halted → t.pc = s.pc ∧ step t = .refused .halted)

/-- A fault is precise and terminal: the step that raises it changes the status only, it is one of the two
of 60_exceptions.md R130 for the reason given there, and no step follows (R132, R137; the spec's decisions
D10 and D20; that a later step answers the fault is log entry 5). -/
def Obligations.FaultsArePreciseAndTerminal : Prop :=
  ∀ (s t : State) (f : Fault), step s = .next t → t.status = .faulted f →
    t = { s with status := .faulted f } ∧ step t = .fault f ∧
    ((s.memSize ≤ s.pc.toNat ∧ f = .fetchRange s.pc) ∨
      (s.pc.toNat < s.memSize ∧ ∃ rB rA imm,
        (decodeWord (s.mem.read s.pc.toNat) = .lw rB rA imm ∨
          decodeWord (s.mem.read s.pc.toNat) = .sw rB rA imm) ∧
        f = .addressRange ((s.reg rA).toNat + imm) ∧
        ((s.reg rA).toNat + imm < 0 ∨ (s.memSize : Int) ≤ (s.reg rA).toNat + imm)))

/-- A taken branch whose sum leaves memory completes, cannot wrap into valid memory, and the next step raises
`FetchRangeFault` (43_branch_equal.md R91, 10_state.md R14; the spec's decisions D8 and D9). -/
def Obligations.BranchOutsideMemoryFaultsNext : Prop :=
  ∀ (s : State) (rA rB : Reg) (imm7 : BitVec 7),
    configValid s.config = true → s.status = .running → s.pc.toNat < s.memSize →
    s.reg rA = s.reg rB →
    ((s.pc.toNat : Int) + 1 + sext7 imm7 < 0 ∨ (s.memSize : Int) ≤ s.pc.toNat + 1 + sext7 imm7) →
    ∃ t, exec (.jeq rA rB (sext7 imm7)) s = .next t ∧
      (t.pc.toNat : Int) = (s.pc.toNat + 1 + sext7 imm7) % 65536 ∧ s.memSize ≤ t.pc.toNat ∧
      step t = .next { t with status := .faulted (.fetchRange t.pc) }

/-- A stored word is what the next fetch from its address reads (20_memory.md R41). -/
def Obligations.StoredWordIsFetched : Prop :=
  ∀ (s : State) (rB rA : Reg) (imm : Int) (p : Word),
    effectiveAddress s rA imm = p.toNat → p.toNat < s.memSize →
    ∃ t, exec (.sw rB rA imm) s = .next t ∧
      State.fetch { t with pc := p } = some (s.reg rB) ∧
      ∀ q : Word, q ≠ p → State.fetch { t with pc := q } = State.fetch { s with pc := q }

/-- A load returns the value of the most recent store to its address: a load right after the store, and also
after one more instruction that is no store to that address (20_memory.md R38 item 2). -/
def Obligations.LoadReadsLatestStore : Prop :=
  ∀ (s t u : State) (rB rA rB' rA' : Reg) (imm imm' : Int) (i : Instr),
    0 ≤ effectiveAddress s rA imm → effectiveAddress s rA imm < s.memSize →
    exec (.sw rB rA imm) s = .next t →
    (u = t ∨ (exec i t = .next u ∧
      ∀ r b k, i = .sw r b k → effectiveAddress t b k ≠ effectiveAddress s rA imm)) →
    effectiveAddress u rA' imm' = effectiveAddress s rA imm →
    ∃ v, exec (.lw rB' rA' imm') u = .next v ∧ v.reg rB' = s.reg rB

/-- A jal that does not halt, then `jr $7`, returns to the word after the jal (44_jump.md R96,
40_three_register.md R75). -/
def Obligations.CallThenReturn : Prop :=
  ∀ (s : State) (imm13 : BitVec 13) (ignored : BitVec 6), imm13.toNat ≠ s.pc.toNat →
    ∃ t u, exec (.jal imm13.toNat) s = .next t ∧ t.pc.toNat = imm13.toNat ∧
      exec (.jr 7 ignored) t = .next u ∧ u.pc.toNat = (s.pc.toNat + 1) % 65536 ∧ u.status = s.status

/-- A jr to its own address, and a taken jeq with displacement -1, loop for ever and are no halt: after any
number of steps the state is the same (70_reset_and_hazards.md R162). -/
def Obligations.SelfLoopsRunForever : Prop :=
  ∀ (s : State) (k : Nat), configValid s.config = true → s.status = .running →
    s.pc.toNat < s.memSize →
    ((∃ rA ignored, decodeWord (s.mem.read s.pc.toNat) = .jr rA ignored ∧ s.reg rA = s.pc) ∨
      ∃ rA rB, decodeWord (s.mem.read s.pc.toNat) = .jeq rA rB (-1) ∧ s.reg rA = s.reg rB) →
    Host.Core.run Sys2Proof.core k s = .next s

/-- The caches are hidden from programs (10_state.md R22): two machines that differ only in their caches,
cache configurations and traces take, for any number of steps, the same steps as far as registers, `pc`,
memory, memory size and status go. -/
def Obligations.ProgramCannotSeeCaches : Prop :=
  ∀ (k : Nat) (s t : State), configValid s.config = true → configValid t.config = true →
    s.view = t.view →
    SameOutcomeView (Host.Core.run Sys2Proof.core k s) (Host.Core.run Sys2Proof.core k t)

/-! Caches and trace -/

/-- The number of events per executed instruction and their order (50_cache.md R118): the trace only grows,
by the events of the levels that R118 lists. -/
def Obligations.EventsPerInstruction : Prop :=
  ∀ (i : Instr) (s t : State), exec i s = .next t →
    ∃ es, t.trace = s.trace ++ es ∧ es.map Event.level = eventLevels i s

/-- A load accesses L2 iff its L1 outcome is not HIT; a store accesses L1, and always L2 where L2 exists: two
events with two levels, one event with one level (50_cache.md R116, R117). -/
def Obligations.SecondLevelAccess : Prop :=
  ∀ (s : State) (rB rA : Reg) (imm : Int),
    0 ≤ effectiveAddress s rA imm → effectiveAddress s rA imm < s.memSize →
    (∀ c2, s.l2 = some c2 →
      (∃ t, exec (.lw rB rA imm) s = .next t ∧
        t.l1 = (levelAccess s.l1 (effectiveAddress s rA imm).toNat).cache ∧
        t.l2 = some (if (levelAccess s.l1 (effectiveAddress s rA imm).toNat).residency = .hit then c2
          else (levelAccess c2 (effectiveAddress s rA imm).toNat).cache) ∧
        ((∃ e ∈ t.trace.drop s.trace.length, e.level = .l2) ↔
          (levelAccess s.l1 (effectiveAddress s rA imm).toNat).residency ≠ .hit)) ∧
      ∃ t, exec (.sw rB rA imm) s = .next t ∧
        t.l1 = (levelAccess s.l1 (effectiveAddress s rA imm).toNat).cache ∧
        t.l2 = some (levelAccess c2 (effectiveAddress s rA imm).toNat).cache ∧
        (t.trace.drop s.trace.length).map (fun e => (e.level, e.kind)) = [(.l1, .sw), (.l2, .sw)]) ∧
    (s.l2 = none → ∃ t, exec (.sw rB rA imm) s = .next t ∧
      t.l1 = (levelAccess s.l1 (effectiveAddress s rA imm).toNat).cache ∧ t.l2 = none ∧
      (t.trace.drop s.trace.length).map (fun e => (e.level, e.kind)) = [(.l1, .sw)])

/-- The address split (50_cache.md R102): the block number is `tag * numLines + line` with `line` in range,
so two addresses have the same line and tag iff they lie in the same block. -/
def Obligations.AddressSplit : Prop :=
  ∀ (c : CacheConfig) (a b : Nat), cacheConfigValid c = true →
    a / c.blockSize = tagOf c a * cacheNumLines c + lineOf c a ∧ lineOf c a < cacheNumLines c ∧
    ((lineOf c a = lineOf c b ∧ tagOf c a = tagOf c b) ↔ a / c.blockSize = b / c.blockSize)

/-- Case "resident" (50_cache.md R106): a HIT; the matching slot gets recency 0, every other slot 1 more; no
tag changes. -/
def Obligations.ResidentAccessPromotes : Prop :=
  ∀ (n : Nat) (S : CacheSet) (tag i : Nat) (sl : Slot),
    SetOk n S → S[i]? = some sl → sl.tag = some tag →
    (accessSet S tag).1 = .hit ∧ (accessSet S tag).2.length = n ∧
    (accessSet S tag).2[i]? = some { tag := some tag, recency := 0 } ∧
    ∀ j x, j ≠ i → S[j]? = some x →
      (accessSet S tag).2[j]? = some { tag := x.tag, recency := x.recency + 1 }

/-- Case "fill" (50_cache.md R107; that the lowest absent slot is filled and ends at recency 1 is the spec's
decision D13): a MISS; slots `0 .. i - 1` are bumped, slot `i` holds the tag with recency 1, the slots above
are untouched. -/
def Obligations.FillTakesLowestAbsentSlot : Prop :=
  ∀ (S : CacheSet) (tag i : Nat) (sl : Slot),
    (∀ x ∈ S, x.tag ≠ some tag) → S[i]? = some sl → sl.tag = none →
    (∀ j x, j < i → S[j]? = some x → x.tag ≠ none) →
    (accessSet S tag).1 = .miss ∧ (accessSet S tag).2.length = S.length ∧
    (accessSet S tag).2[i]? = some { tag := some tag, recency := 1 } ∧
    (∀ j x, j < i → S[j]? = some x →
      (accessSet S tag).2[j]? = some { tag := x.tag, recency := x.recency + 1 }) ∧
    ∀ j, i < j → (accessSet S tag).2[j]? = S[j]?

/-- Case "evict" (50_cache.md R108, R109): a MISS; the victim is the lowest index among the slots of largest
recency; it holds the new tag with recency 1, every other slot is bumped. -/
def Obligations.EvictionTakesStalestSlot : Prop :=
  ∀ (S : CacheSet) (tag v : Nat) (sl : Slot),
    (∀ x ∈ S, x.tag ≠ some tag) → (∀ x ∈ S, x.tag ≠ none) → S[v]? = some sl →
    (∀ x ∈ S, x.recency ≤ sl.recency) →
    (∀ j x, j < v → S[j]? = some x → x.recency < sl.recency) →
    (accessSet S tag).1 = .miss ∧ (accessSet S tag).2.length = S.length ∧
    (accessSet S tag).2[v]? = some { tag := some tag, recency := 1 } ∧
    ∀ j x, j ≠ v → S[j]? = some x →
      (accessSet S tag).2[j]? = some { tag := x.tag, recency := x.recency + 1 }

/-- An access keeps a set well formed, empties no slot, and changes a slot's tag only where it fills an absent
slot or evicts from a full set (10_state.md R21 items 1 to 3, the spec's inference). -/
def Obligations.AccessKeepsSetWellFormed : Prop :=
  ∀ (n : Nat) (S : CacheSet) (tag : Nat), SetOk n S →
    SetOk n (accessSet S tag).2 ∧
    ∀ (j : Nat) (x y : Slot), S[j]? = some x → (accessSet S tag).2[j]? = some y → x.tag ≠ none →
      y.tag ≠ none ∧ (y.tag ≠ x.tag → (∀ z ∈ S, z.tag ≠ none) ∧ ∀ z ∈ S, z.recency ≤ x.recency)

/-- An access to a cache changes only the set of the address's line, and not the configuration
(50_cache.md R103, 10_state.md R20). -/
def Obligations.LevelAccessTouchesOneSet : Prop :=
  ∀ (C : Cache) (addr : Nat),
    (levelAccess C addr).line = lineOf C.config addr ∧
    (levelAccess C addr).cache.config = C.config ∧
    (levelAccess C addr).cache.sets.length = C.sets.length ∧
    ∀ line, line ≠ lineOf C.config addr → (levelAccess C addr).cache.sets[line]? = C.sets[line]?

/-- Every access, of a load or a store, leaves the address's block resident (50_cache.md R119): the next
access to any address of the block is a HIT; a slot just hit has recency 0 and one just missed has recency 1
(R110 item 1, the spec's inference). -/
def Obligations.AccessedBlockIsResident : Prop :=
  ∀ (C : Cache) (a b : Nat), cacheConfigValid C.config = true → CacheOk C →
    a / C.config.blockSize = b / C.config.blockSize →
    (levelAccess (levelAccess C a).cache b).residency = .hit ∧
    ∃ sl ∈ (levelAccess C a).cache.setAt (lineOf C.config a), sl.tag = some (tagOf C.config a) ∧
      sl.recency = if (levelAccess C a).residency = .hit then 0 else 1

/-- The first two scenarios of the source (50_cache.md R122 items 1 and 2, the spec's inference), for all
addresses and, in the second, for every direct-mapped configuration. In the first, C evicts B: the set then
holds A and C, so that A hits next and B misses (the recencies rest on the spec's decision D13). -/
def Obligations.SourceCacheScenarios : Prop :=
  (∀ A B C : Nat, A ≠ B → A ≠ C → B ≠ C →
    levelResidencies (emptyCache { size := 2, assoc := 2, blockSize := 1 }) [A, B, A, C] =
      [.miss, .miss, .hit, .miss] ∧
    (levelAccesses (emptyCache { size := 2, assoc := 2, blockSize := 1 }) [A, B, A, C]).sets =
      [[{ tag := some A, recency := 1 }, { tag := some C, recency := 1 }]] ∧
    levelResidencies (emptyCache { size := 2, assoc := 2, blockSize := 1 }) [A, B, A, C, A] =
      [.miss, .miss, .hit, .miss, .hit] ∧
    levelResidencies (emptyCache { size := 2, assoc := 2, blockSize := 1 }) [A, B, A, C, B] =
      [.miss, .miss, .hit, .miss, .miss]) ∧
  ∀ (c : CacheConfig) (a b : Nat), cacheConfigValid c = true → c.assoc = 1 →
    lineOf c a = lineOf c b → tagOf c a ≠ tagOf c b →
    levelResidencies (emptyCache c) [a, b, a, b] = [.miss, .miss, .miss, .miss]

/-- The partial bump of the fill case has no observable effect (50_cache.md R111, the spec's inference): from
any well-formed set, every sequence of accesses has the same HIT and MISS results as with a fill that bumps
the whole set. -/
def Obligations.PartialBumpIsUnobservable : Prop :=
  ∀ (n : Nat) (S : CacheSet) (tags : List Nat), SetOk n S →
    residencies accessSet S tags = residencies accessSetWhole S tags

/-! Invariants -/

/-- Every step keeps the invariant (10_state.md R20, R21; 50_cache.md R120; 60_exceptions.md R130; the
memory's canonical form). -/
def Obligations.StepKeepsInvariant : Prop :=
  ∀ s t : State, Inv s → step s = .next t → Inv t

/-- Every step keeps the memory canonical and inside its bounds, from any state. -/
def Obligations.StepKeepsMemoryCanonical : Prop :=
  ∀ s t : State, s.mem.wf = true → MemoryInRange s → step s = .next t →
    t.mem.wf = true ∧ MemoryInRange t

/-- Every step keeps both caches well formed (10_state.md R20, R21), from any state. -/
def Obligations.StepKeepsCachesWellFormed : Prop :=
  ∀ s t : State, CacheOk s.l1 → (∀ C ∈ s.l2, CacheOk C) → step s = .next t →
    CacheOk t.l1 ∧ ∀ C ∈ t.l2, CacheOk C

/-- The invariant holds at reset (with the configuration of log entry 2). -/
def Obligations.ResetHoldsInvariant : Prop := Inv State.reset

/-! The creation of the machine -/

/-- The state after reset, for every valid configuration and every image that fits (10_state.md R25,
70_reset_and_hazards.md R152; the values of registers, `pc` and the words above the image are the spec's
decision D14). -/
def Obligations.BootGivesResetState : Prop :=
  ∀ (memSize : Nat) (ints : List Int) (image : List Word) (l1 : CacheConfig) (l2 : Option CacheConfig),
    cacheConfigs ints = some (l1, l2) → memSize ≤ 65472 → image.length ≤ memSize →
    ∃ s, (boot memSize ints image).outcome = .ok s ∧
      s.config = { memSize := memSize, l1 := l1, l2 := l2 } ∧
      (∀ r, s.reg r = 0) ∧ s.pc = 0 ∧
      (∀ k (h : k < image.length), s.mem.read k = image[k]) ∧
      (∀ k, image.length ≤ k → s.mem.read k = 0) ∧
      CacheAbsent s.l1 ∧ (∀ C ∈ s.l2, CacheAbsent C) ∧ s.status = .running ∧ s.trace = []

/-- The CORE starts only with three or six integers that are valid triples (70_reset_and_hazards.md R155):
with any others there is no state. A memory size above 65472 is refused in the same way, which is the model's
choice (log entry 8). -/
def Obligations.ConfigurationAcceptedExactlyWhenValid : Prop :=
  ∀ (memSize : Nat) (ints : List Int) (image : List Word),
    (ValidInts ints → memSize ≤ 65472 → image.length ≤ memSize →
      ∃ s, (boot memSize ints image).outcome = .ok s) ∧
    (¬ ValidInts ints → (boot memSize ints image).outcome = .error .invalidConfiguration) ∧
    (65472 < memSize → (boot memSize ints image).outcome = .error .invalidConfiguration)

/-- An image of more than `MEM_SIZE` words is refused (70_reset_and_hazards.md R152; the spec's decision
D18). -/
def Obligations.OversizeImageRefused : Prop :=
  ∀ (memSize : Nat) (ints : List Int) (image : List Word), (cacheConfigs ints).isSome = true →
    memSize ≤ 65472 → memSize < image.length →
    (boot memSize ints image).outcome = .error .imageTooLarge

/-- A machine that starts satisfies the invariant. -/
def Obligations.BootHoldsInvariant : Prop :=
  ∀ (memSize : Nat) (ints : List Int) (image : List Word) (s : State),
    (boot memSize ints image).outcome = .ok s → Inv s

/-! Listings -/

/-- A `jeq` line assembles exactly when its target is within `-64 .. 63` words of the next address, and the
word, executed at the line's address with equal registers, goes to the target mod 2^16 (30_encoding.md R62,
43_branch_equal.md R90). -/
def Obligations.AssembledBranchReachesTarget : Prop :=
  ∀ (here : Nat) (a b : Reg) (target : Int),
    ((assemble here (.jeq a b target)).isSome = true ↔
      -64 ≤ target - (here + 1) ∧ target - (here + 1) ≤ 63) ∧
    ∀ (w : Word) (s : State), assemble here (.jeq a b target) = some w → s.pc.toNat = here →
      s.reg a = s.reg b →
      ∃ t, exec (decodeWord w) s = .next t ∧ (t.pc.toNat : Int) = target % 65536

/-- The `halt` line assembles exactly at an address up to 8191, and the word, executed there, halts with
nothing else changed (30_encoding.md R63, 44_jump.md R95). -/
def Obligations.AssembledHaltHalts : Prop :=
  ∀ here : Nat, ((assemble here .halt).isSome = true ↔ here ≤ 8191) ∧
    ∀ (w : Word) (s : State), assemble here .halt = some w → s.pc.toNat = here →
      exec (decodeWord w) s = .next { s with status := .halted }

/-! The configuration report -/

/-- Before the first step a valid configuration is reported, one entry per configured cache, L1 before L2, also
where the image is then refused; an invalid one is reported by nothing; and the report is that of the state's
own configuration (50_cache.md R121, 70_reset_and_hazards.md R151; the order of the entries is the spec's
decision D12, the order of report and image D18, a memory size above 65472 log entry 8). -/
def Obligations.ConfigurationReportedBeforeFirstStep : Prop :=
  ∀ (memSize : Nat) (ints : List Int) (image : List Word),
    (∀ l1 l2, cacheConfigs ints = some (l1, l2) → memSize ≤ 65472 →
      ∃ r, (boot memSize ints image).report = some r ∧
        r.map CacheReport.name = (if l2 = none then [.l1] else [.l1, .l2]) ∧
        ∀ e ∈ r, ∃ c, (e.name = .l1 ∧ c = l1 ∨ e.name = .l2 ∧ some c = l2) ∧
          e.size = c.size ∧ e.assoc = c.assoc ∧ e.blockSize = c.blockSize ∧
          e.numLines * (e.assoc * e.blockSize) = e.size) ∧
    (¬ ValidInts ints ∨ 65472 < memSize → (boot memSize ints image).report = none) ∧
    ∀ s, (boot memSize ints image).outcome = .ok s →
      (boot memSize ints image).report = configReport s.config ∧ s.trace = []
end

