-- ==== Sys2Proof/Laws/State.lean ====
section
/-! SUPPORT. One lemma per field per update of State, and the reads of a register after a write. -/

namespace Sys2Proof.Machine

/-! `setReg` -/

@[simp] theorem setReg_memSize (s : State) (i : Reg) (v : Word) : (s.setReg i v).memSize = s.memSize := rfl
@[simp] theorem setReg_pc (s : State) (i : Reg) (v : Word) : (s.setReg i v).pc = s.pc := rfl
@[simp] theorem setReg_mem (s : State) (i : Reg) (v : Word) : (s.setReg i v).mem = s.mem := rfl
@[simp] theorem setReg_l1 (s : State) (i : Reg) (v : Word) : (s.setReg i v).l1 = s.l1 := rfl
@[simp] theorem setReg_l2 (s : State) (i : Reg) (v : Word) : (s.setReg i v).l2 = s.l2 := rfl
@[simp] theorem setReg_status (s : State) (i : Reg) (v : Word) : (s.setReg i v).status = s.status := rfl
@[simp] theorem setReg_trace (s : State) (i : Reg) (v : Word) : (s.setReg i v).trace = s.trace := rfl
@[simp] theorem setReg_config (s : State) (i : Reg) (v : Word) : (s.setReg i v).config = s.config := rfl

@[simp] theorem reg_setReg_same (s : State) (i : Reg) (v : Word) : (s.setReg i v).reg i = v := by
  simp [State.reg, State.setReg]

theorem reg_setReg_other (s : State) (i j : Reg) (v : Word) (h : j ≠ i) :
    (s.setReg i v).reg j = s.reg j := by
  have hne : i.val ≠ j.val := fun e => h (Fin.ext e.symm)
  simp only [State.reg, State.setReg, Fin.getElem_fin]
  exact Vector.getElem_set_ne _ _ hne

/-- A read after a write, in one equation. -/
theorem reg_setReg (s : State) (i j : Reg) (v : Word) :
    (s.setReg i v).reg j = if j = i then v else s.reg j := by
  split
  · subst j; exact reg_setReg_same s i v
  · exact reg_setReg_other s i j v ‹_›

/-! `setPc` and `advance` -/

@[simp] theorem setPc_memSize (s : State) (t : Int) : (s.setPc t).memSize = s.memSize := rfl
@[simp] theorem setPc_regs (s : State) (t : Int) : (s.setPc t).regs = s.regs := rfl
@[simp] theorem setPc_pc (s : State) (t : Int) : (s.setPc t).pc = mod16 t := rfl
@[simp] theorem setPc_mem (s : State) (t : Int) : (s.setPc t).mem = s.mem := rfl
@[simp] theorem setPc_l1 (s : State) (t : Int) : (s.setPc t).l1 = s.l1 := rfl
@[simp] theorem setPc_l2 (s : State) (t : Int) : (s.setPc t).l2 = s.l2 := rfl
@[simp] theorem setPc_status (s : State) (t : Int) : (s.setPc t).status = s.status := rfl
@[simp] theorem setPc_trace (s : State) (t : Int) : (s.setPc t).trace = s.trace := rfl
@[simp] theorem setPc_config (s : State) (t : Int) : (s.setPc t).config = s.config := rfl
@[simp] theorem setPc_reg (s : State) (t : Int) (i : Reg) : (s.setPc t).reg i = s.reg i := rfl

@[simp] theorem advance_memSize (s : State) : s.advance.memSize = s.memSize := rfl
@[simp] theorem advance_regs (s : State) : s.advance.regs = s.regs := rfl
@[simp] theorem advance_pc (s : State) : s.advance.pc = mod16 (s.pc.toNat + 1) := rfl
@[simp] theorem advance_mem (s : State) : s.advance.mem = s.mem := rfl
@[simp] theorem advance_l1 (s : State) : s.advance.l1 = s.l1 := rfl
@[simp] theorem advance_l2 (s : State) : s.advance.l2 = s.l2 := rfl
@[simp] theorem advance_status (s : State) : s.advance.status = s.status := rfl
@[simp] theorem advance_trace (s : State) : s.advance.trace = s.trace := rfl
@[simp] theorem advance_config (s : State) : s.advance.config = s.config := rfl
@[simp] theorem advance_reg (s : State) (i : Reg) : s.advance.reg i = s.reg i := rfl

/-! `raise` and `halt` -/

@[simp] theorem raise_memSize (s : State) (f : Fault) : (s.raise f).memSize = s.memSize := rfl
@[simp] theorem raise_regs (s : State) (f : Fault) : (s.raise f).regs = s.regs := rfl
@[simp] theorem raise_pc (s : State) (f : Fault) : (s.raise f).pc = s.pc := rfl
@[simp] theorem raise_mem (s : State) (f : Fault) : (s.raise f).mem = s.mem := rfl
@[simp] theorem raise_l1 (s : State) (f : Fault) : (s.raise f).l1 = s.l1 := rfl
@[simp] theorem raise_l2 (s : State) (f : Fault) : (s.raise f).l2 = s.l2 := rfl
@[simp] theorem raise_status (s : State) (f : Fault) : (s.raise f).status = .faulted f := rfl
@[simp] theorem raise_trace (s : State) (f : Fault) : (s.raise f).trace = s.trace := rfl
@[simp] theorem raise_config (s : State) (f : Fault) : (s.raise f).config = s.config := rfl
@[simp] theorem raise_reg (s : State) (f : Fault) (i : Reg) : (s.raise f).reg i = s.reg i := rfl

@[simp] theorem halt_memSize (s : State) : s.halt.memSize = s.memSize := rfl
@[simp] theorem halt_regs (s : State) : s.halt.regs = s.regs := rfl
@[simp] theorem halt_pc (s : State) : s.halt.pc = s.pc := rfl
@[simp] theorem halt_mem (s : State) : s.halt.mem = s.mem := rfl
@[simp] theorem halt_l1 (s : State) : s.halt.l1 = s.l1 := rfl
@[simp] theorem halt_l2 (s : State) : s.halt.l2 = s.l2 := rfl
@[simp] theorem halt_status (s : State) : s.halt.status = .halted := rfl
@[simp] theorem halt_trace (s : State) : s.halt.trace = s.trace := rfl
@[simp] theorem halt_config (s : State) : s.halt.config = s.config := rfl
@[simp] theorem halt_reg (s : State) (i : Reg) : s.halt.reg i = s.reg i := rfl

/-! `emit` -/

@[simp] theorem emit_memSize (s : State) (e : Event) : (s.emit e).memSize = s.memSize := rfl
@[simp] theorem emit_regs (s : State) (e : Event) : (s.emit e).regs = s.regs := rfl
@[simp] theorem emit_pc (s : State) (e : Event) : (s.emit e).pc = s.pc := rfl
@[simp] theorem emit_mem (s : State) (e : Event) : (s.emit e).mem = s.mem := rfl
@[simp] theorem emit_l1 (s : State) (e : Event) : (s.emit e).l1 = s.l1 := rfl
@[simp] theorem emit_l2 (s : State) (e : Event) : (s.emit e).l2 = s.l2 := rfl
@[simp] theorem emit_status (s : State) (e : Event) : (s.emit e).status = s.status := rfl
@[simp] theorem emit_trace (s : State) (e : Event) : (s.emit e).trace = s.trace ++ [e] := rfl
@[simp] theorem emit_config (s : State) (e : Event) : (s.emit e).config = s.config := rfl
@[simp] theorem emit_reg (s : State) (e : Event) (i : Reg) : (s.emit e).reg i = s.reg i := rfl

end Sys2Proof.Machine
end

