-- ==== Sys2Proof/Laws/Memory.lean ====
section
/-! SUPPORT. The memory's basic laws: a read after a write, and the canonical form kept by every operation
that makes a memory. -/

namespace Sys2Proof.Machine

@[simp] theorem read_nil (a : Nat) : Memory.read [] a = 0 := rfl

theorem read_cons (b : Nat) (w : Word) (m : Memory) (a : Nat) :
    Memory.read ((b, w) :: m) a = if a = b then w else Memory.read m a := by
  simp only [Memory.read, List.lookup]
  split <;> simp_all

/-- Reading a memory made of two parts, where the first lists no word at the address. -/
theorem read_append_of_not_mem (m n : Memory) (a : Nat) (h : ∀ c ∈ m, c.1 ≠ a) :
    Memory.read (m ++ n) a = Memory.read n a := by
  induction m with
  | nil => rfl
  | cons c m ih =>
    obtain ⟨b, w⟩ := c
    have hb : a ≠ b := fun e => h (b, w) (by simp) e.symm
    rw [List.cons_append, read_cons, if_neg hb, ih fun c hc => h c (by simp [hc])]

theorem read_of_not_mem (m : Memory) (a : Nat) (h : ∀ c ∈ m, c.1 ≠ a) : Memory.read m a = 0 := by
  simpa using read_append_of_not_mem m [] a h

/-- Keeping the words of a set of addresses that holds `a` does not change what is read at `a`. -/
theorem read_filter (p : Nat → Bool) (m : Memory) (a : Nat) (h : p a = true) :
    Memory.read (m.filter fun c => p c.1) a = Memory.read m a := by
  induction m with
  | nil => rfl
  | cons c m ih =>
    obtain ⟨b, w⟩ := c
    by_cases hb : p b = true
    · rw [List.filter_cons_of_pos (by simpa using hb), read_cons, read_cons, ih]
    · have hne : a ≠ b := by rintro rfl; exact hb h
      rw [List.filter_cons_of_neg (by simpa using hb), read_cons, if_neg hne, ih]

/-- The stored word is read back (20_memory.md R38 item 2). -/
@[simp] theorem read_write_same (m : Memory) (a : Nat) (v : Word) : (m.write a v).read a = v := by
  have hlow : ∀ c ∈ m.filter (fun c => decide (c.1 < a)), c.1 ≠ a := by
    intro c hc e
    simp [e] at hc
  have hhigh : ∀ c ∈ m.filter (fun c => decide (a < c.1)), c.1 ≠ a := by
    intro c hc e
    simp [e] at hc
  rw [Memory.write, List.append_assoc, read_append_of_not_mem _ _ _ hlow]
  split
  · rename_i hv
    rw [List.nil_append, read_of_not_mem _ _ hhigh, hv]
  · rw [List.singleton_append, read_cons, if_pos rfl]

/-- No other word changes (20_memory.md R32). -/
theorem read_write_other (m : Memory) (a b : Nat) (v : Word) (h : b ≠ a) :
    (m.write a v).read b = m.read b := by
  have hmid : ∀ c ∈ (if v = 0 then [] else [(a, v)] : Memory), c.1 ≠ b := by
    intro c hc
    split at hc
    · simp at hc
    · obtain rfl : c = (a, v) := by simpa using hc
      exact fun e => h e.symm
  rcases Nat.lt_or_gt_of_ne h with hlt | hgt
  · have hhigh : ∀ c ∈ (if v = 0 then [] else [(a, v)] : Memory) ++ m.filter (fun c => decide (a < c.1)),
        c.1 ≠ b := by
      intro c hc
      rcases List.mem_append.1 hc with hc | hc
      · exact hmid c hc
      · simp at hc; omega
    rw [Memory.write, List.append_assoc]
    conv_rhs => rw [← read_filter (fun x => decide (x < a)) m b (by simpa using hlt)]
    generalize m.filter (fun c => decide (c.1 < a)) = low
    induction low with
    | nil => rw [List.nil_append, read_of_not_mem _ _ hhigh]; rfl
    | cons c low ih => obtain ⟨x, w⟩ := c; rw [List.cons_append, read_cons, read_cons, ih]
  · have hlow : ∀ c ∈ m.filter (fun c => decide (c.1 < a)), c.1 ≠ b := by
      intro c hc; simp at hc; omega
    rw [Memory.write, List.append_assoc, read_append_of_not_mem _ _ _ hlow,
      read_append_of_not_mem _ _ _ hmid, read_filter (fun x => decide (a < x)) m b (by simpa using hgt)]

theorem wf_iff (m : Memory) :
    m.wf = true ↔ m.Pairwise (fun c d => c.1 < d.1) ∧ ∀ c ∈ m, c.2 ≠ 0 := by
  simp [Memory.wf]

/-- A store keeps the canonical form. -/
theorem write_wf (m : Memory) (a : Nat) (v : Word) (h : m.wf = true) : (m.write a v).wf = true := by
  obtain ⟨hp, hz⟩ := (wf_iff m).1 h
  refine (wf_iff _).2 ⟨?_, ?_⟩
  · rw [Memory.write, List.append_assoc]
    refine List.pairwise_append.2 ⟨hp.filter _, List.pairwise_append.2 ⟨?_, hp.filter _, ?_⟩, ?_⟩
    · split <;> simp
    · intro c hc d hd
      split at hc
      · simp at hc
      · simp at hc hd; simp [hc, hd]
    · intro c hc d hd
      have hca : c.1 < a := by simp at hc; exact hc.2
      rcases List.mem_append.1 hd with hd | hd
      · split at hd
        · simp at hd
        · simp at hd; simp [hd, hca]
      · simp at hd; omega
  · intro c hc
    rw [Memory.write, List.append_assoc] at hc
    rcases List.mem_append.1 hc with hc | hc
    · exact hz c (List.mem_of_mem_filter hc)
    · rcases List.mem_append.1 hc with hc | hc
      · split at hc
        · simp at hc
        · simp at hc; simpa [hc]
      · exact hz c (List.mem_of_mem_filter hc)

/-- Every word listed after a store was listed before or is the stored one. -/
theorem mem_write (m : Memory) (a : Nat) (v : Word) (c : WordCell) (h : c ∈ m.write a v) :
    c ∈ m ∨ c = (a, v) := by
  rw [Memory.write, List.append_assoc] at h
  rcases List.mem_append.1 h with h | h
  · exact .inl (List.mem_of_mem_filter h)
  · rcases List.mem_append.1 h with h | h
    · split at h
      · simp at h
      · exact .inr (by simpa using h)
    · exact .inl (List.mem_of_mem_filter h)

/-- The cells of an image lie between its first and its last address. -/
theorem imageCells_bounds (start : Nat) (ws : List Word) (c : WordCell) (h : c ∈ imageCells start ws) :
    start ≤ c.1 ∧ c.1 < start + ws.length := by
  induction ws generalizing start with
  | nil => simp [imageCells] at h
  | cons w ws ih =>
    rw [imageCells] at h
    have step : c ∈ imageCells (start + 1) ws → start ≤ c.1 ∧ c.1 < start + (w :: ws).length := by
      intro h
      have := ih (start + 1) h
      simp only [List.length_cons]
      omega
    split at h
    · exact step h
    · rcases List.mem_cons.1 h with h | h
      · simp [h]
      · exact step h

/-- The image is placed in canonical form. -/
theorem imageCells_wf (start : Nat) (ws : List Word) : (imageCells start ws).wf = true := by
  induction ws generalizing start with
  | nil => rfl
  | cons w ws ih =>
    rw [imageCells]
    split
    · exact ih (start + 1)
    · rename_i hw
      obtain ⟨hp, hz⟩ := (wf_iff _).1 (ih (start + 1))
      refine (wf_iff _).2 ⟨List.pairwise_cons.2 ⟨fun c hc => ?_, hp⟩, fun c hc => ?_⟩
      · have := imageCells_bounds _ _ c hc
        simp only
        omega
      · rcases List.mem_cons.1 hc with rfl | hc
        · exact hw
        · exact hz c hc

end Sys2Proof.Machine
end

