-- ==== Sys2Proof/Laws/Boot.lean ====
section
/-! SUPPORT. What the creation of the machine can do, said once. -/

namespace Sys2Proof.Machine

/-- The report of a valid configuration (50_cache.md R121). -/
theorem configReport_of_valid (c : Config) (h : configValid c = true) :
    configReport c = some (reportOf .l1 c.l1 :: (c.l2.map (reportOf .l2)).toList) := if_pos h

/-- An invalid configuration has no report (50_cache.md R121). -/
theorem configReport_of_invalid (c : Config) (h : configValid c = false) : configReport c = none := by
  simp [configReport, h]

/-- An accepted configuration has the given memory size and caches, and is valid. -/
theorem bootConfig_eq_some (memSize : Nat) (ints : List Int) (c : Config) :
    bootConfig memSize ints = some c ↔
      c.memSize = memSize ∧ cacheConfigs ints = some (c.l1, c.l2) ∧ configValid c = true := by
  unfold bootConfig
  cases h : cacheConfigs ints with
  | none => simp
  | some l =>
    obtain ⟨l1, l2⟩ := l
    obtain ⟨m, k1, k2⟩ := c
    simp only [Option.ite_none_right_eq_some, Option.some.injEq, Config.mk.injEq, Prod.mk.injEq]
    constructor
    · rintro ⟨hv, rfl, rfl, rfl⟩
      exact ⟨rfl, ⟨rfl, rfl⟩, hv⟩
    · rintro ⟨rfl, ⟨rfl, rfl⟩, hv⟩
      exact ⟨hv, rfl, rfl, rfl⟩

/-- The three ends of the reset sequence (70_reset_and_hazards.md R151): refused before the report, refused
after it, and started. -/
theorem boot_cases (memSize : Nat) (ints : List Int) (image : List Word) :
    (bootConfig memSize ints = none ∧
      boot memSize ints image = { report := none, outcome := .error .invalidConfiguration }) ∨
    ∃ c, bootConfig memSize ints = some c ∧ configValid c = true ∧
      ((c.memSize < image.length ∧
          boot memSize ints image = { report := configReport c, outcome := .error .imageTooLarge }) ∨
        (image.length ≤ c.memSize ∧
          boot memSize ints image =
            { report := configReport c
              outcome := .ok { State.initial c with mem := imageCells 0 image } })) := by
  unfold boot
  cases h : bootConfig memSize ints with
  | none => exact .inl ⟨rfl, rfl⟩
  | some c =>
    refine .inr ⟨c, rfl, ((bootConfig_eq_some memSize ints c).1 h).2.2, ?_⟩
    dsimp only [bootState]
    split
    · exact .inr ⟨‹_›, rfl⟩
    · exact .inl ⟨Nat.not_le.1 ‹_›, rfl⟩

end Sys2Proof.Machine
end

