-- ==== Sys2Proof/Laws/Cache.lean ====
section
/-! SUPPORT. What one access to a set and to a cache can do, said once. -/

namespace Sys2Proof.Machine

/-- The matching slot, where there is one: it holds the tag and no lower slot does (50_cache.md R104). -/
theorem residentIdx_some (S : CacheSet) (tag i : Nat) (h : residentIdx S tag = some i) :
    ∃ hi : i < S.length, S[i].tag = some tag ∧ ∀ j (hj : j < i), S[j].tag ≠ some tag := by
  obtain ⟨hi, hp, hlow⟩ := List.findIdx?_eq_some_iff_getElem.1 h
  exact ⟨hi, by simpa using hp, fun j hj => by simpa using hlow j hj⟩

/-- No slot holds the tag, where none matches. -/
theorem residentIdx_none (S : CacheSet) (tag : Nat) (h : residentIdx S tag = none) :
    ∀ sl ∈ S, sl.tag ≠ some tag := by
  intro sl hsl
  have := List.findIdx?_eq_none_iff.1 h sl hsl
  simpa using this

/-- The slot to fill: it is absent and every lower slot holds a tag (50_cache.md R107). -/
theorem absentIdx_some (S : CacheSet) (i : Nat) (h : absentIdx S = some i) :
    ∃ hi : i < S.length, S[i].tag = none ∧ ∀ j (hj : j < i), S[j].tag ≠ none := by
  obtain ⟨hi, hp, hlow⟩ := List.findIdx?_eq_some_iff_getElem.1 h
  exact ⟨hi, by simpa using hp, fun j hj => by simpa using hlow j hj⟩

theorem absentIdx_none (S : CacheSet) (h : absentIdx S = none) : ∀ sl ∈ S, sl.tag ≠ none := by
  intro sl hsl
  have := List.findIdx?_eq_none_iff.1 h sl hsl
  simpa [Option.isSome_iff_ne_none] using this

/-- The three cases of an access (50_cache.md R103): resident, fill, evict. -/
theorem accessSet_cases (S : CacheSet) (tag : Nat) :
    (∃ i, residentIdx S tag = some i ∧ accessSet S tag = (.hit, hitSlot S i)) ∨
    (∃ i, residentIdx S tag = none ∧ absentIdx S = some i ∧
      accessSet S tag = (.miss, fillSlot S i tag)) ∨
    (residentIdx S tag = none ∧ absentIdx S = none ∧
      accessSet S tag = (.miss, evictSlot S (victimIdx S) tag)) := by
  unfold accessSet
  cases hr : residentIdx S tag with
  | some i => exact .inl ⟨i, rfl, rfl⟩
  | none =>
    cases ha : absentIdx S with
    | some i => exact .inr (.inl ⟨i, rfl, rfl, rfl⟩)
    | none => exact .inr (.inr ⟨rfl, rfl, rfl⟩)

@[simp] theorem length_hitSlot (S : CacheSet) (i : Nat) : (hitSlot S i).length = S.length := by
  simp [hitSlot]

@[simp] theorem length_fillSlot (S : CacheSet) (i tag : Nat) : (fillSlot S i tag).length = S.length := by
  simp [fillSlot]

@[simp] theorem length_evictSlot (S : CacheSet) (v tag : Nat) : (evictSlot S v tag).length = S.length := by
  simp [evictSlot]

/-- An access keeps the number of slots (10_state.md R20). -/
@[simp] theorem length_accessSet (S : CacheSet) (tag : Nat) : (accessSet S tag).2.length = S.length := by
  rcases accessSet_cases S tag with ⟨i, -, h⟩ | ⟨i, -, -, h⟩ | ⟨-, -, h⟩ <;> simp [h]

@[simp] theorem bump_tag (sl : Slot) : sl.bump.tag = sl.tag := rfl
@[simp] theorem bump_recency (sl : Slot) : sl.bump.recency = sl.recency + 1 := rfl

/-- Slot `j` after a hit on slot `i` (50_cache.md R106). -/
theorem getElem?_hitSlot (S : CacheSet) (i j : Nat) :
    (hitSlot S i)[j]? = S[j]?.map fun sl => if j = i then { sl with recency := 0 } else sl.bump := by
  simp [hitSlot]

/-- Slot `j` after a fill of slot `i` (50_cache.md R107). -/
theorem getElem?_fillSlot (S : CacheSet) (i j tag : Nat) :
    (fillSlot S i tag)[j]? =
      S[j]?.map fun sl =>
        if j = i then { tag := some tag, recency := 1 } else if j < i then sl.bump else sl := by
  simp only [fillSlot, List.getElem?_mapIdx, List.getElem?_set]
  cases hS : S[j]? with
  | none =>
    have hj : ¬ j < S.length := Nat.not_lt.2 (List.getElem?_eq_none_iff.1 hS)
    by_cases h : i = j <;> simp [h, hj]
  | some sl =>
    have hj : j < S.length := (List.getElem?_eq_some_iff.1 hS).1
    by_cases hji : i = j
    · simp [hji, hj, Slot.bump]
    · have : (j ≤ i) ↔ j < i := by omega
      simp [hji, Ne.symm hji, this]

/-- Slot `j` after the eviction of slot `v` (50_cache.md R108). -/
theorem getElem?_evictSlot (S : CacheSet) (v j tag : Nat) :
    (evictSlot S v tag)[j]? =
      S[j]?.map fun sl => if j = v then { tag := some tag, recency := 1 } else sl.bump := by
  simp only [evictSlot, List.getElem?_map, List.getElem?_set]
  cases hS : S[j]? with
  | none =>
    have hj : ¬ j < S.length := Nat.not_lt.2 (List.getElem?_eq_none_iff.1 hS)
    by_cases h : v = j <;> simp [h, hj]
  | some sl =>
    have hj : j < S.length := (List.getElem?_eq_some_iff.1 hS).1
    by_cases hjv : v = j
    · simp [hjv, hj, Slot.bump]
    · simp [hjv, Ne.symm hjv]

/-! One access to one cache. -/

@[simp] theorem levelAccess_line (C : Cache) (addr : Nat) :
    (levelAccess C addr).line = lineOf C.config addr := rfl

@[simp] theorem levelAccess_config (C : Cache) (addr : Nat) :
    (levelAccess C addr).cache.config = C.config := rfl

theorem levelAccess_residency (C : Cache) (addr : Nat) :
    (levelAccess C addr).residency =
      (accessSet (C.setAt (lineOf C.config addr)) (tagOf C.config addr)).1 := rfl

theorem levelAccess_sets (C : Cache) (addr : Nat) :
    (levelAccess C addr).cache.sets =
      C.sets.set (lineOf C.config addr)
        (accessSet (C.setAt (lineOf C.config addr)) (tagOf C.config addr)).2 := rfl

/-- The kinds of 50_cache.md R113. -/
@[simp] theorem eventKind_store (r : Residency) : eventKind true r = .sw := rfl
@[simp] theorem eventKind_load_hit : eventKind false .hit = .hit := rfl
@[simp] theorem eventKind_load_miss : eventKind false .miss = .miss := rfl

end Sys2Proof.Machine
end

