-- ==== Sys2Proof/Laws/Ops.lean ====
section
/-! SUPPORT. For each shared operation, one lemma that says what it can do. -/

namespace Sys2Proof.Machine

/-- `v mod 2^16` as an integer (00_scope.md R7). -/
theorem mod16_toNat (v : Int) : ((mod16 v).toNat : Int) = v % 65536 := by
  simp only [mod16, BitVec.toNat_ofInt]
  omega

/-- A number below 2^16 is stored as itself. -/
theorem mod16_toNat_of_lt (n : Nat) (h : n < 65536) : (mod16 n).toNat = n := by
  have := mod16_toNat n
  omega

@[simp] theorem mod16_of_word (w : Word) : mod16 w.toNat = w := by
  have hw := w.isLt
  exact BitVec.eq_of_toNat_eq (mod16_toNat_of_lt w.toNat (by omega))

theorem inRange_iff (s : State) (a : Int) : s.inRange a = true ↔ 0 ≤ a ∧ a < s.memSize := by
  simp [State.inRange]

/-- A read inside memory (20_memory.md R31). -/
theorem memRead_of_inRange (s : State) (a : Int) (h0 : 0 ≤ a) (h1 : a < s.memSize) :
    s.memRead a = some (s.mem.read a.toNat) := by
  simp [State.memRead, State.inRange, h0, h1]

/-- A read outside memory raises (20_memory.md R31). -/
theorem memRead_of_not_inRange (s : State) (a : Int) (h : a < 0 ∨ s.memSize ≤ a) : s.memRead a = none := by
  have : ¬ (0 ≤ a ∧ a < (s.memSize : Int)) := by omega
  simp [State.memRead, State.inRange, this]

/-- A store inside memory (20_memory.md R32). -/
theorem memWrite_of_inRange (s : State) (a : Int) (v : Word) (h0 : 0 ≤ a) (h1 : a < s.memSize) :
    s.memWrite a v = some { s with mem := s.mem.write a.toNat v } := by
  simp [State.memWrite, State.inRange, h0, h1]

/-- A store outside memory raises (20_memory.md R32). -/
theorem memWrite_of_not_inRange (s : State) (a : Int) (v : Word) (h : a < 0 ∨ s.memSize ≤ a) :
    s.memWrite a v = none := by
  have : ¬ (0 ≤ a ∧ a < (s.memSize : Int)) := by omega
  simp [State.memWrite, State.inRange, this]

/-- Two states with the same memory read the same. -/
theorem memRead_congr (s t : State) (hm : t.mem = s.mem) (hn : t.memSize = s.memSize) (a : Int) :
    t.memRead a = s.memRead a := by
  simp [State.memRead, State.inRange, hm, hn]

theorem sameMemory_of_eq (s t : State) (hm : t.mem = s.mem) (hn : t.memSize = s.memSize) :
    SameMemory s t :=
  ⟨hn, hm, memRead_congr s t hm hn⟩

/-- The fetch inside memory (20_memory.md R30). -/
theorem fetch_of_lt (s : State) (h : s.pc.toNat < s.memSize) :
    s.fetch = some (s.mem.read s.pc.toNat) := by
  simp [State.fetch, h]

/-- The fetch outside memory raises (20_memory.md R30). -/
theorem fetch_of_ge (s : State) (h : s.memSize ≤ s.pc.toNat) : s.fetch = none := by
  simp [State.fetch, Nat.not_lt.2 h]

/-- A jump halts at its own address and goes to its target otherwise (44_jump.md R93, R95). -/
theorem jumpOrHalt_cases (s : State) (target : Nat) :
    (target = s.pc.toNat ∧ jumpOrHalt s target = s.halt) ∨
    (target ≠ s.pc.toNat ∧ jumpOrHalt s target = s.setPc target) := by
  unfold jumpOrHalt
  split
  · exact .inl ⟨‹_›, rfl⟩
  · exact .inr ⟨‹_›, rfl⟩

/-! The access of a load or store: caches and trace only. -/

@[simp] theorem accessL1_l2 (s : State) (pc : Word) (a : Nat) (b : Bool) : (accessL1 s pc a b).l2 = s.l2 := rfl

/-- The access of level 2 changes nothing but level 2 and the trace. -/
theorem accessL2_frame (s : State) (pc : Word) (a : Nat) (b : Bool) :
    (accessL2 s pc a b).view = s.view ∧ (accessL2 s pc a b).l1 = s.l1 ∧
      (accessL2 s pc a b).config = s.config := by
  unfold accessL2
  cases h : s.l2 with
  | none => exact ⟨rfl, rfl, rfl⟩
  | some c2 => exact ⟨rfl, rfl, by simp [State.config, State.emit, h]⟩

/-- `CacheAccess` returns nothing to the engine (50_cache.md R115): what a program sees, and the
configuration, are as before. -/
theorem cacheAccess_frame (s : State) (pc : Word) (a : Nat) (b : Bool) :
    (cacheAccess s pc a b).view = s.view ∧ (cacheAccess s pc a b).config = s.config := by
  unfold cacheAccess
  dsimp only
  split
  · exact ⟨rfl, rfl⟩
  · obtain ⟨hv, -, hc⟩ := accessL2_frame (accessL1 s pc a b) pc a b
    exact ⟨hv.trans rfl, hc.trans rfl⟩

@[simp] theorem cacheAccess_memSize (s : State) (pc : Word) (a : Nat) (b : Bool) :
    (cacheAccess s pc a b).memSize = s.memSize :=
  congrArg ProgramView.memSize (cacheAccess_frame s pc a b).1
@[simp] theorem cacheAccess_regs (s : State) (pc : Word) (a : Nat) (b : Bool) :
    (cacheAccess s pc a b).regs = s.regs :=
  congrArg ProgramView.regs (cacheAccess_frame s pc a b).1
@[simp] theorem cacheAccess_pc (s : State) (pc : Word) (a : Nat) (b : Bool) :
    (cacheAccess s pc a b).pc = s.pc :=
  congrArg ProgramView.pc (cacheAccess_frame s pc a b).1
@[simp] theorem cacheAccess_mem (s : State) (pc : Word) (a : Nat) (b : Bool) :
    (cacheAccess s pc a b).mem = s.mem :=
  congrArg ProgramView.mem (cacheAccess_frame s pc a b).1
@[simp] theorem cacheAccess_status (s : State) (pc : Word) (a : Nat) (b : Bool) :
    (cacheAccess s pc a b).status = s.status :=
  congrArg ProgramView.status (cacheAccess_frame s pc a b).1
@[simp] theorem cacheAccess_config (s : State) (pc : Word) (a : Nat) (b : Bool) :
    (cacheAccess s pc a b).config = s.config :=
  (cacheAccess_frame s pc a b).2
@[simp] theorem cacheAccess_reg (s : State) (pc : Word) (a : Nat) (b : Bool) (i : Reg) :
    (cacheAccess s pc a b).reg i = s.reg i := by
  simp [State.reg]

/-- What the access does to the caches and the trace (50_cache.md R115 to R118). -/
theorem cacheAccess_caches (s : State) (a : Nat) (b : Bool) :
    CachesAccessed s (cacheAccess s s.pc a b) a b := by
  unfold CachesAccessed cacheAccess
  dsimp only
  cases h2 : s.l2 with
  | none =>
    split
    · exact ⟨rfl, h2, rfl⟩
    · simp [accessL2, h2, accessL1, State.emit]
  | some c2 =>
    by_cases hk : eventKind b (levelAccess s.l1 a).residency = .hit
    · simp [hk, accessL1, State.emit, h2]
    · simp [hk, accessL2, accessL1, State.emit, h2]

end Sys2Proof.Machine
end

