-- ==== Sys2Proof/Laws/PerInstr.lean ====
section
/-! SUPPORT. The per-instruction family EncodingMatchesRow: an instruction's word has the fixed bits of its
row of the opcode table, `w AND mask = match` (30_encoding.md R57). -/

namespace Sys2Proof.Laws

open Sys2Proof

theorem formatR_fixed_bits (rA rB rD : Reg) (fn : BitVec 4) :
    formatR rA rB rD fn &&& 0xE00F = fn.setWidth 16 := by
  refine BitVec.eq_of_getLsbD_eq fun k hk => ?_
  unfold formatR
  rw [BitVec.getLsbD_and, BitVec.getLsbD_append, BitVec.getLsbD_append, BitVec.getLsbD_append,
    BitVec.getLsbD_append]
  interval_cases k <;> simp

theorem formatReserved_fixed_bits (ignored : BitVec 9) (fn : BitVec 4) :
    formatReserved ignored fn &&& 0xE00F = fn.setWidth 16 := by
  refine BitVec.eq_of_getLsbD_eq fun k hk => ?_
  unfold formatReserved
  rw [BitVec.getLsbD_and, BitVec.getLsbD_append, BitVec.getLsbD_append]
  interval_cases k <;> simp

theorem formatI_fixed_bits (op : BitVec 3) (rA rB : Reg) (imm : Int) :
    formatI op rA rB imm &&& 0xE000 = op.setWidth 16 <<< 13 := by
  refine BitVec.eq_of_getLsbD_eq fun k hk => ?_
  unfold formatI
  rw [BitVec.getLsbD_and, BitVec.getLsbD_append, BitVec.getLsbD_append, BitVec.getLsbD_append]
  interval_cases k <;> simp

theorem formatJ_fixed_bits (link : BitVec 1) (target : Nat) :
    formatJ link target &&& 0xE000 = (0b01#2 ++ link).setWidth 16 <<< 13 := by
  refine BitVec.eq_of_getLsbD_eq fun k hk => ?_
  unfold formatJ
  have hl : link = 0 ∨ link = 1 := by revert link; decide
  rw [BitVec.getLsbD_and, BitVec.getLsbD_append, BitVec.getLsbD_append]
  rcases hl with rfl | rfl <;> interval_cases k <;> simp

/-- A smaller mask keeps fewer bits. -/
theorem and_of_and {w m v : Word} (h : w &&& 0xE00F = v) (m' : Word) (hm : 0xE00F &&& m' = m) :
    w &&& m = v &&& m' := by
  rw [← hm, ← h, BitVec.and_assoc]

end Sys2Proof.Laws

/-- The word of the instruction has the fixed bits of its row (30_encoding.md R57). -/
def Sys2Proof.Laws.EncodingMatchesRow.Statement (i : Sys2Proof.Instr) : Prop :=
  Sys2Proof.encode i &&& i.opcode.mask = i.opcode.pattern

namespace Sys2Proof.Laws.EncodingMatchesRow

open Sys2Proof

theorem add (rD rA rB : Reg) : Statement (.add rD rA rB) := formatR_fixed_bits rA rB rD _
theorem sub (rD rA rB : Reg) : Statement (.sub rD rA rB) := formatR_fixed_bits rA rB rD _
theorem or (rD rA rB : Reg) : Statement (.or rD rA rB) := formatR_fixed_bits rA rB rD _
theorem and (rD rA rB : Reg) : Statement (.and rD rA rB) := formatR_fixed_bits rA rB rD _
theorem slt (rD rA rB : Reg) : Statement (.slt rD rA rB) := formatR_fixed_bits rA rB rD _

theorem jr (rA : Reg) (ignored : BitVec 6) : Statement (.jr rA ignored) := by
  refine BitVec.eq_of_getLsbD_eq fun k hk => ?_
  simp only [encode, Instr.opcode, Opcode.mask, Opcode.pattern]
  rw [BitVec.getLsbD_and, BitVec.getLsbD_append, BitVec.getLsbD_append, BitVec.getLsbD_append]
  interval_cases k <;> simp

theorem reservedNop0101 (ignored : BitVec 9) : Statement (.reservedNop0101 ignored) :=
  formatReserved_fixed_bits ignored _

theorem reservedNop011x (ignored : BitVec 9) (x : BitVec 1) : Statement (.reservedNop011x ignored x) := by
  refine (and_of_and (formatReserved_fixed_bits ignored _) 0xFFFE rfl).trans ?_
  show BitVec.setWidth 16 (0b011#3 ++ x) &&& 0xFFFE = 6
  revert x; decide

theorem reservedNop1001 (ignored : BitVec 9) : Statement (.reservedNop1001 ignored) :=
  formatReserved_fixed_bits ignored _

theorem reservedNop101x (ignored : BitVec 9) (x : BitVec 1) : Statement (.reservedNop101x ignored x) := by
  refine (and_of_and (formatReserved_fixed_bits ignored _) 0xFFFE rfl).trans ?_
  show BitVec.setWidth 16 (0b101#3 ++ x) &&& 0xFFFE = 10
  revert x; decide

theorem reservedNop11xx (ignored : BitVec 9) (xx : BitVec 2) : Statement (.reservedNop11xx ignored xx) := by
  refine (and_of_and (formatReserved_fixed_bits ignored _) 0xFFFC rfl).trans ?_
  show BitVec.setWidth 16 (0b11#2 ++ xx) &&& 0xFFFC = 0xC
  revert xx; decide

theorem addi (rB rA : Reg) (imm : Int) : Statement (.addi rB rA imm) := formatI_fixed_bits _ rA rB imm
theorem slti (rB rA : Reg) (imm : Int) : Statement (.slti rB rA imm) := formatI_fixed_bits _ rA rB imm
theorem lw (rB rA : Reg) (imm : Int) : Statement (.lw rB rA imm) := formatI_fixed_bits _ rA rB imm
theorem sw (rB rA : Reg) (imm : Int) : Statement (.sw rB rA imm) := formatI_fixed_bits _ rA rB imm
theorem jeq (rA rB : Reg) (imm : Int) : Statement (.jeq rA rB imm) := formatI_fixed_bits _ rA rB imm
theorem j (target : Nat) : Statement (.j target) := formatJ_fixed_bits _ target
theorem jal (target : Nat) : Statement (.jal target) := formatJ_fixed_bits _ target

end Sys2Proof.Laws.EncodingMatchesRow
end

