-- ==== Sys2Proof/Laws/Step.lean ====
section
/-! SUPPORT. What one step can do, said once. -/

namespace Sys2Proof.Machine

/-- If a step answers a next state, the configuration is valid, the status was running, and the step is
either the fetch fault or the instruction at `pc` (70_reset_and_hazards.md R157). -/
theorem step_next_cases (s t : State) (h : step s = .next t) :
    configValid s.config = true ∧ s.status = .running ∧
      ((s.memSize ≤ s.pc.toNat ∧ t = s.raise (.fetchRange s.pc)) ∨
        (s.pc.toNat < s.memSize ∧ exec (decodeWord (s.mem.read s.pc.toNat)) s = .next t)) := by
  unfold step at h
  split at h
  · rename_i hc
    refine ⟨hc, ?_⟩
    cases hs : s.status with
    | halted => simp [hs] at h
    | faulted f => simp [hs] at h
    | running =>
      refine ⟨rfl, ?_⟩
      simp only [hs] at h
      rcases Nat.lt_or_ge s.pc.toNat s.memSize with hlt | hge
      · rw [fetch_of_lt s hlt] at h
        exact .inr ⟨hlt, h⟩
      · rw [fetch_of_ge s hge] at h
        exact .inl ⟨hge, (Host.Outcome.next.inj h).symm⟩
  · cases h

end Sys2Proof.Machine
end

