-- ==== Sys2Proof/Tests/Slice0.lean ====
section
/-! SUPPORT. The model's own tests. Expected values are those of the named vectors of 95_test_vectors.md, or of
the examples of the named rules. A witness_<statement> theorem shows values that meet the hypotheses of the
statement of that name. -/

namespace Sys2Proof.Tests

open Sys2Proof Sys2Proof.Machine

/-! Helpers -/

/-- A small machine: one cache `4, 1, 1`, the registers and memory words given (the convention of
95_test_vectors.md). -/
def machine (pc : Word) (regs : List (Reg × Word)) (mem : List (Nat × Word)) : State :=
  { State.reset with
    pc := pc
    regs := (regs.foldl (fun (s : State) r => s.setReg r.1 r.2) State.reset).regs
    mem := mem.foldl (fun m c => m.write c.1 c.2) [] }

/-- The next state of an outcome, where there is one. -/
def nextOf : Host.Outcome State Fault Refusal → Option State
  | .next s => some s
  | _ => none

theorem next_of_nextOf (o : Host.Outcome State Fault Refusal) (t : State) (h : nextOf o = some t) :
    o = .next t := by
  cases o <;> simp_all [nextOf]

theorem exists_next (o : Host.Outcome State Fault Refusal) (h : (nextOf o).isSome = true) :
    ∃ t, o = .next t := by
  obtain ⟨t, ht⟩ := Option.isSome_iff_exists.1 h
  exact ⟨t, next_of_nextOf o t ht⟩

/-- One register after one step that runs the word `w`. -/
def regAfter (s : State) (w : Nat) (r : Reg) : Option Word :=
  (nextOf (step (s.withFetchWord 16 w))).map fun t => t.reg r

/-- `pc` and status after one step that runs the word `w`. -/
def pcAfter (s : State) (w : Nat) : Option (Word × Status) :=
  (nextOf (step (s.withFetchWord 16 w))).map fun t => (t.pc, t.status)

/-- The trace after one step that runs the word `w`. -/
def traceAfter (s : State) (w : Nat) : Option (List Event) :=
  (nextOf (step (s.withFetchWord 16 w))).map State.trace

/-! WellFormed smoke: an ill-formed term for each check -/

theorem test_addi_imm_too_large : (Instr.addi 1 2 64).wellFormed = false := by decide
theorem test_addi_imm_too_small : (Instr.addi 1 2 (-65)).wellFormed = false := by decide
theorem test_slti_imm_too_large : (Instr.slti 1 2 64).wellFormed = false := by decide
theorem test_slti_imm_too_small : (Instr.slti 1 2 (-65)).wellFormed = false := by decide
theorem test_lw_imm_too_large : (Instr.lw 1 2 64).wellFormed = false := by decide
theorem test_lw_imm_too_small : (Instr.lw 1 2 (-65)).wellFormed = false := by decide
theorem test_sw_imm_too_large : (Instr.sw 1 2 64).wellFormed = false := by decide
theorem test_sw_imm_too_small : (Instr.sw 1 2 (-65)).wellFormed = false := by decide
theorem test_jeq_imm_too_large : (Instr.jeq 1 2 64).wellFormed = false := by decide
theorem test_jeq_imm_too_small : (Instr.jeq 1 2 (-65)).wellFormed = false := by decide
theorem test_j_target_too_large : (Instr.j 8192).wellFormed = false := by decide
theorem test_jal_target_too_large : (Instr.jal 8192).wellFormed = false := by decide

/-! Decoding: words written out bit by bit from the encoding column of 30_encoding.md R57 -/

theorem test_decode_add : decodeWord 0b000_001_010_011_0000 = .add 3 1 2 := by decide
theorem test_decode_sub : decodeWord 0b000_001_010_011_0001 = .sub 3 1 2 := by decide
theorem test_decode_or : decodeWord 0b000_001_010_011_0010 = .or 3 1 2 := by decide
theorem test_decode_and : decodeWord 0b000_001_010_011_0011 = .and 3 1 2 := by decide
theorem test_decode_slt : decodeWord 0b000_100_100_011_0100 = .slt 3 4 4 := by decide
theorem test_decode_jr : decodeWord 0b000_101_111_111_1000 = .jr 5 0b111111 := by decide
theorem test_decode_nop_0101 : decodeWord 0b000_111111111_0101 = .reservedNop0101 0x1FF := by decide
theorem test_decode_nop_0111 : decodeWord 0b000_000000001_0111 = .reservedNop011x 1 1 := by decide
theorem test_decode_nop_1001 : decodeWord 0b000_100000000_1001 = .reservedNop1001 0x100 := by decide
theorem test_decode_nop_1010 : decodeWord 0b000_000000000_1010 = .reservedNop101x 0 0 := by decide
theorem test_decode_nop_1110 : decodeWord 0b000_000000000_1110 = .reservedNop11xx 0 2 := by decide
theorem test_decode_addi : decodeWord 0b001_001_010_1111111 = .addi 2 1 (-1) := by decide
theorem test_decode_slti : decodeWord 0b111_000_111_1000000 = .slti 7 0 (-64) := by decide
theorem test_decode_lw : decodeWord 0b100_001_010_0000011 = .lw 2 1 3 := by decide
theorem test_decode_sw : decodeWord 0b101_010_111_1001101 = .sw 7 2 (-51) := by decide
theorem test_decode_jeq : decodeWord 0b110_001_010_0111111 = .jeq 1 2 63 := by decide
theorem test_decode_j : decodeWord 0b010_1010101010101 = .j 5461 := by decide
theorem test_decode_jal : decodeWord 0b011_1111111111111 = .jal 8191 := by decide
theorem test_decode_table_word : decodeTableWord 16 0xE505 = some (.slti 2 1 5) := by decide
theorem test_encode_addi : encode (.addi 1 1 (-64)) = 0x24C0 := by decide
theorem test_encode_sw : encode (.sw 2 1 3) = 0xA503 := by decide

/-! One step of each instruction (the vectors of 95_test_vectors.md section 2) -/

theorem test_add_wraps_A2 : regAfter (machine 0 [(1, 0xFFFF), (2, 2)] []) 0x0530 3 = some 1 := by decide
theorem test_add_reg0_ordinary_A4 : regAfter (machine 0 [(0, 3)] []) 0x0000 0 = some 6 := by decide
theorem test_sub_wraps_A6 : regAfter (machine 0 [(1, 5), (2, 7)] []) 0x0531 3 = some 0xFFFE := by decide
theorem test_sub_A10 : regAfter (machine 0 [(5, 0x8000), (6, 1)] []) 0x1741 4 = some 0x7FFF := by decide
theorem test_or_A11 : regAfter (machine 0 [(1, 0x0F0F), (2, 255)] []) 0x0532 3 = some 0x0FFF := by decide
theorem test_and_A13 : regAfter (machine 0 [(1, 0x0F0F), (2, 255)] []) 0x0533 3 = some 15 := by decide
theorem test_slt_unsigned_A17 : regAfter (machine 0 [(1, 0xFFFF), (2, 1), (3, 9)] []) 0x0534 3 = some 0 := by
  decide
theorem test_slt_A20 : regAfter (machine 0 [(1, 3), (2, 2)] []) 0x0524 2 = some 0 := by decide
theorem test_jr_self_is_no_halt_A22 : pcAfter (machine 10 [(5, 10)] []) 0x1408 = some (10, .running) := by
  decide
theorem test_jr_leaves_memory_A23 : pcAfter (machine 10 [(5, 0xFFFF)] []) 0x1408 = some (0xFFFF, .running) := by
  decide
theorem test_nop_0101_A26 : pcAfter (machine 10 [(7, 8)] []) 0x1FF5 = some (11, .running) := by decide
theorem test_nop_011x_A28 : pcAfter (machine 32766 [(1, 1)] []) 0x0006 = some (32767, .running) := by decide
theorem test_nop_1001_A27 : regAfter (machine 10 [(7, 8)] []) 0x0009 7 = some 8 := by decide
theorem test_nop_101x : pcAfter (machine 10 [] []) 0x000A = some (11, .running) := by decide
theorem test_nop_11xx_A25 : pcAfter (machine 10 [(0, 1)] []) 0x000F = some (11, .running) := by decide
theorem test_addi_B2 : regAfter (machine 0 [] []) 0x257F 2 = some 0xFFFF := by decide
theorem test_addi_B5 : regAfter (machine 0 [(0, 9)] []) 0x2087 1 = some 16 := by decide
theorem test_slti_unsigned_B12 : regAfter (machine 0 [(2, 9)] []) 0xE57F 2 = some 1 := by decide
theorem test_slti_bound_B14 : regAfter (machine 0 [(1, 0xFFC0), (2, 9)] []) 0xE540 2 = some 0 := by decide
theorem test_lw_base_is_destination_C2 :
    regAfter (machine 5 [(1, 100)] [(99, 0x1234)]) 0x84FF 1 = some 0x1234 := by decide
theorem test_lw_no_wrap_C9 :
    pcAfter (machine 5 [(1, 0xFFFF)] []) 0x8501 = some (5, .faulted (.addressRange 65536)) := by decide
theorem test_sw_event_C10 :
    traceAfter (machine 5 [(1, 100), (2, 0xCAFE)] []) 0xA503 = some [⟨.l1, .sw, 5, 103, 3⟩] := by decide
theorem test_sw_last_word_C16 :
    (nextOf (step ((machine 5 [(1, 0x7FC1), (2, 7)] []).withFetchWord 16 0xA53E))).map
      (fun t => t.mem.read 32767) = some 7 := by decide
theorem test_jeq_taken_D4 : pcAfter (machine 100 [] []) 0xC540 = some (37, .running) := by decide
theorem test_jeq_below_zero_D6 : pcAfter (machine 0 [] []) 0xC07E = some (65535, .running) := by decide
theorem test_j_halts_E2 : pcAfter (machine 3 [] []) 0x4003 = some (3, .halted) := by decide
theorem test_j_compares_whole_pc_E6 : pcAfter (machine 8195 [] []) 0x4003 = some (3, .running) := by decide
theorem test_jal_links_then_halts_E8 : regAfter (machine 3 [(7, 55)] []) 0x6003 7 = some 4 := by decide
theorem test_jal_E11 : regAfter (machine 32767 [] []) 0x7FFF 7 = some 0x8000 := by decide
theorem test_fetch_fault_P6 :
    nextOf (step (machine 65535 [] [])) =
      some { machine 65535 [] [] with status := .faulted (.fetchRange 65535) } := by decide

/-! Caches (95_test_vectors.md section 3) -/

/-- The residencies of K7, which tell the fill rule from its other reading (92_eei_decisions.md D13). -/
theorem test_K7 : levelResidencies (emptyCache ⟨2, 2, 1⟩) [1, 2, 3, 0, 0, 3] =
    [.miss, .miss, .miss, .miss, .hit, .hit] := by decide

/-- K3: blocks of two words; the seventh access evicts by the tie-break. -/
theorem test_K3 : levelResidencies (emptyCache ⟨8, 2, 2⟩) [0, 1, 2, 4, 5, 8, 0, 12, 4] =
    [.miss, .hit, .miss, .miss, .hit, .miss, .miss, .miss, .miss] := by decide

/-- K6, its last access: a tie at recency 2, the lower index is evicted. -/
theorem test_K6_tie : accessSet [⟨some 4, 1⟩, ⟨some 2, 2⟩, ⟨some 3, 2⟩] 5 =
    (.miss, [⟨some 4, 2⟩, ⟨some 5, 1⟩, ⟨some 3, 3⟩]) := by decide

/-- S6: the slots after the source's LRU scenario. -/
theorem test_S6_slots : accessSet [⟨some 10, 0⟩, ⟨some 20, 2⟩] 30 =
    (.miss, [⟨some 10, 1⟩, ⟨some 30, 1⟩]) := by decide

/-- The two-level machine of K5 as it stands before its fifth access (`pc = 4`). -/
def k5 : State :=
  { machine 4 [(1, 5)] [] with
    l1 := ⟨⟨2, 1, 1⟩, [[⟨some 2, 1⟩], [⟨none, 0⟩]]⟩
    l2 := some ⟨⟨8, 2, 2⟩, [[⟨some 1, 0⟩, ⟨none, 1⟩], [⟨some 1, 1⟩, ⟨none, 0⟩]]⟩ }

/-- K5, `sw 5` at `pc = 4`: two `SW` events; the store promotes in L2. -/
theorem test_K5_store : traceAfter k5 0xA480 = some [⟨.l1, .sw, 4, 5, 1⟩, ⟨.l2, .sw, 4, 5, 0⟩] := by decide

/-- K5, `lw 4` with the block in L1: one event. -/
theorem test_K5_load_hit :
    traceAfter { k5 with regs := (k5.setReg 1 4).regs } 0x8480 = some [⟨.l1, .hit, 4, 4, 0⟩] := by decide

/-! Configuration (S9) and boot -/

theorem test_config_not_power_of_two : (cacheConfigs [6, 2, 1]).isSome = true := by decide
theorem test_config_two_levels : (cacheConfigs [4, 2, 2, 2, 1, 1]).isSome = true := by decide
theorem test_config_four_values : cacheConfigs [4, 1, 1, 8] = none := by decide
theorem test_config_not_multiple : cacheConfigs [8, 2, 3] = none := by decide
theorem test_config_second_invalid : cacheConfigs [4, 2, 2, 16, 3, 2] = none := by decide
theorem test_config_zero : cacheConfigs [4, 0, 1] = none := by decide
theorem test_config_negative : cacheConfigs [-4, -1, 1] = none := by decide
theorem test_report : (boot 32768 [4, 2, 2, 16, 2, 2] []).report =
    some [⟨.l1, 4, 2, 2, 1⟩, ⟨.l2, 16, 2, 2, 4⟩] := by decide
theorem test_no_report_of_invalid : configReport { memSize := 32768, l1 := ⟨8, 2, 3⟩, l2 := none } = none := by
  decide

/-- S1: the three words of the example image. -/
theorem test_image_S1 : imageCells 0 [0x2087, 0x000F, 0x4002] = [(0, 0x2087), (1, 0x000F), (2, 0x4002)] := by
  decide

/-- Reset is the boot of the default configuration with the empty image (log entries 2 and 11). -/
theorem test_reset_is_boot :
    boot 32768 [4, 1, 1] [] = { report := some [⟨.l1, 4, 1, 1, 4⟩], outcome := .ok State.reset } := rfl

/-! Listings (30_encoding.md R62, R63) -/

theorem test_assemble_jeq : assemble 20 (.jeq 1 2 24) = some 0xC503 := by decide
theorem test_assemble_halt_too_high : assemble 8192 .halt = none := by decide

/-! Witnesses -/

theorem witness_DecodeOfEncode : (Instr.slti 7 0 (-64)).wellFormed = true ∧ (Instr.jal 8191).wellFormed = true := by
  decide

theorem witness_ReservedWordsAreNops :
    (0b1111#4).toNat ∈
      [0b0101, 0b0110, 0b0111, 0b1001, 0b1010, 0b1011, 0b1100, 0b1101, 0b1110, 0b1111] ∧
    (Instr.reservedNop101x 0 1).opcode ∈
      [Opcode.reservedNop0101, .reservedNop011x, .reservedNop1001, .reservedNop101x, .reservedNop11xx] := by
  decide

/-- Both clauses of the load and store statements, each at both of its ends: 0 and 32767 inside, -1 and 32768
outside (`sext7 127 = -1`). -/
theorem witness_LoadEffect_StoreEffect :
    (0 ≤ effectiveAddress (machine 0 [] []) 1 (sext7 0) ∧
      effectiveAddress (machine 0 [] []) 1 (sext7 0) < (machine 0 [] []).memSize) ∧
    (0 ≤ effectiveAddress (machine 0 [(1, 0x7FFF)] []) 1 (sext7 0) ∧
      effectiveAddress (machine 0 [(1, 0x7FFF)] []) 1 (sext7 0) < (machine 0 [(1, 0x7FFF)] []).memSize) ∧
    (effectiveAddress (machine 0 [] []) 1 (sext7 127) < 0 ∨
      (machine 0 [] []).memSize ≤ effectiveAddress (machine 0 [] []) 1 (sext7 127)) ∧
    (effectiveAddress (machine 0 [(1, 0x8000)] []) 1 (sext7 0) < 0 ∨
      (machine 0 [(1, 0x8000)] []).memSize ≤ effectiveAddress (machine 0 [(1, 0x8000)] []) 1 (sext7 0)) := by
  decide

theorem witness_ImmediateFieldValue :
    (63#7).getLsbD 6 = false ∧ (64#7).getLsbD 6 = true := by decide

/-- At the last address inside memory; also for PlacedWordRunsNext and RunningMachineAlwaysSteps. -/
theorem witness_StepRunsDecodedInstruction :
    configValid (machine 32767 [] [(32767, 0x2505)]).config = true ∧
    (machine 32767 [] [(32767, 0x2505)]).status = .running ∧
    (machine 32767 [] [(32767, 0x2505)]).pc.toNat < (machine 32767 [] [(32767, 0x2505)]).memSize ∧
    decodeWord ((machine 32767 [] [(32767, 0x2505)]).mem.read 32767) = .addi 2 1 5 ∧ 65535 < 65536 := by
  decide

theorem witness_FetchOutsideMemoryFaults :
    configValid (machine 32768 [] []).config = true ∧ (machine 32768 [] []).status = .running ∧
    (machine 32768 [] []).memSize ≤ (machine 32768 [] []).pc.toNat := by decide

theorem witness_StoppedMachineTakesNoStep :
    configValid ((machine 3 [] []).halt).config = true ∧ ((machine 3 [] []).halt).status = .halted ∧
    configValid ((machine 3 [] []).raise (.addressRange (-1))).config = true ∧
    ((machine 3 [] []).raise (.addressRange (-1))).status = .faulted (.addressRange (-1)) := by decide

theorem witness_ConfigurationNeverChanges : ∃ t, step (machine 0 [] [(0, 0xA500)]) = .next t :=
  exists_next _ (by decide)

theorem witness_OnlyDestinationRegisterChanges :
    ∃ t, exec (.jal 100) (machine 3 [] []) = .next t ∧ destReg (.jal 100) ≠ some 6 :=
  ⟨_, rfl, by decide⟩

/-- A store next to the read word. -/
theorem witness_OnlyStoresChangeMemory :
    ∃ t, exec (.sw 2 1 3) (machine 5 [(1, 100)] []) = .next t ∧
      ∀ rB rA imm, Instr.sw 2 1 3 = .sw rB rA imm →
        (104 : Int) ≠ effectiveAddress (machine 5 [(1, 100)] []) rA imm := by
  obtain ⟨t, ht⟩ := exists_next (exec (.sw 2 1 3) (machine 5 [(1, 100)] [])) (by decide)
  refine ⟨t, ht, ?_⟩
  intro rB rA imm h
  cases h
  decide

theorem witness_HaltExactlyAtSelfJump :
    (∃ t, step (machine 3 [] [(3, 0x6003)]) = .next t ∧ t.status = .halted) ∧
    (machine 3 [] [(3, 0x6003)]).pc.toNat < (machine 3 [] [(3, 0x6003)]).memSize ∧
    decodeWord ((machine 3 [] [(3, 0x6003)]).mem.read 3) = .jal 3 := by
  refine ⟨⟨((machine 3 [] [(3, 0x6003)]).setReg 7 4).halt, next_of_nextOf _ _ (by decide), rfl⟩, by decide⟩

theorem witness_FaultsArePreciseAndTerminal :
    (∃ t, step (machine 32768 [] []) = .next t ∧ t.status = .faulted (.fetchRange 32768)) ∧
    ∃ t, step (machine 5 [] [(5, 0x857F)]) = .next t ∧ t.status = .faulted (.addressRange (-1)) := by
  refine ⟨⟨(machine 32768 [] []).raise (.fetchRange 32768), next_of_nextOf _ _ (by decide), rfl⟩,
    ⟨(machine 5 [] [(5, 0x857F)]).raise (.addressRange (-1)), next_of_nextOf _ _ (by decide), rfl⟩⟩

/-- Below address 0 and at the first address past memory. -/
theorem witness_BranchOutsideMemoryFaultsNext :
    (configValid (machine 0 [] []).config = true ∧ (machine 0 [] []).status = .running ∧
      (machine 0 [] []).pc.toNat < (machine 0 [] []).memSize ∧
      (machine 0 [] []).reg 0 = (machine 0 [] []).reg 1 ∧
      (((machine 0 [] []).pc.toNat : Int) + 1 + sext7 126 < 0)) ∧
    (configValid (machine 32767 [] []).config = true ∧ (machine 32767 [] []).status = .running ∧
      (machine 32767 [] []).pc.toNat < (machine 32767 [] []).memSize ∧
      (machine 32767 [] []).reg 0 = (machine 32767 [] []).reg 0 ∧
      ((machine 32767 [] []).memSize : Int) ≤ (machine 32767 [] []).pc.toNat + 1 + sext7 0) := by
  decide

theorem witness_StoredWordIsFetched :
    effectiveAddress (machine 5 [(1, 5), (2, 0x4006)] []) 1 1 = (6#16).toNat ∧
    (6#16).toNat < (machine 5 [(1, 5), (2, 0x4006)] []).memSize := by decide

/-- A store at 103, an add between, and a load from 103 by another base register. -/
theorem witness_LoadReadsLatestStore :
    ∃ t u, 0 ≤ effectiveAddress (machine 5 [(1, 100), (2, 7), (3, 104)] []) 1 3 ∧
      effectiveAddress (machine 5 [(1, 100), (2, 7), (3, 104)] []) 1 3 <
        (machine 5 [(1, 100), (2, 7), (3, 104)] []).memSize ∧
      exec (.sw 2 1 3) (machine 5 [(1, 100), (2, 7), (3, 104)] []) = .next t ∧
      (exec (.add 2 2 2) t = .next u ∧ ∀ r b k, Instr.add 2 2 2 = .sw r b k →
        effectiveAddress t b k ≠ effectiveAddress (machine 5 [(1, 100), (2, 7), (3, 104)] []) 1 3) ∧
      effectiveAddress u 3 (-1) = effectiveAddress (machine 5 [(1, 100), (2, 7), (3, 104)] []) 1 3 := by
  obtain ⟨t, ht⟩ := exists_next (exec (.sw 2 1 3) (machine 5 [(1, 100), (2, 7), (3, 104)] [])) (by decide)
  have hu : (nextOf (exec (.sw 2 1 3) (machine 5 [(1, 100), (2, 7), (3, 104)] []))).map
      (fun t => effectiveAddress (writeResult t 2 0) 3 (-1)) = some 103 := by decide
  rw [ht] at hu
  refine ⟨t, _, by decide, by decide, ht, ⟨rfl, fun r b k h => by cases h⟩, ?_⟩
  have h3 : (t.reg 3).toNat = 104 := by
    have : (nextOf (exec (.sw 2 1 3) (machine 5 [(1, 100), (2, 7), (3, 104)] []))).map
        (fun t => (t.reg 3).toNat) = some 104 := by decide
    rw [ht] at this
    simpa [nextOf] using this
  have e : ∀ v, ((writeResult t 2 v).reg 3).toNat = (t.reg 3).toNat := fun v => by
    simp [writeResult, State.advance, State.setPc, State.setReg, State.reg]
  simp only [effectiveAddress]
  rw [e, h3]
  decide

theorem witness_CallThenReturn : (100#13).toNat ≠ (machine 3 [] []).pc.toNat := by decide

/-- Both self loops. -/
theorem witness_SelfLoopsRunForever :
    configValid (machine 10 [(5, 10)] [(10, 0x1408)]).config = true ∧
    (machine 10 [(5, 10)] [(10, 0x1408)]).status = .running ∧
    (machine 10 [(5, 10)] [(10, 0x1408)]).pc.toNat < (machine 10 [(5, 10)] [(10, 0x1408)]).memSize ∧
    decodeWord ((machine 10 [(5, 10)] [(10, 0x1408)]).mem.read 10) = .jr 5 0 ∧
    (machine 10 [(5, 10)] [(10, 0x1408)]).reg 5 = (machine 10 [(5, 10)] [(10, 0x1408)]).pc ∧
    decodeWord ((machine 0 [] [(0, 0xC07F)]).mem.read 0) = .jeq 0 0 (-1) := by decide

/-- The same program view with one cache and with two. -/
theorem witness_ProgramCannotSeeCaches :
    configValid k5.config = true ∧ configValid (machine 4 [(1, 5)] []).config = true ∧
    k5.view = (machine 4 [(1, 5)] []).view ∧ k5.l1 ≠ (machine 4 [(1, 5)] []).l1 := by decide

theorem witness_EventsPerInstruction :
    ∃ t, exec (.lw 2 1 0) k5 = .next t ∧ eventLevels (.lw 2 1 0) k5 = [.l1, .l2] := by
  obtain ⟨t, ht⟩ := exists_next (exec (.lw 2 1 0) k5) (by decide)
  exact ⟨t, ht, by decide⟩

/-- Both clauses: a machine with two levels and one with one. -/
theorem witness_SecondLevelAccess :
    (0 ≤ effectiveAddress k5 1 0 ∧ effectiveAddress k5 1 0 < k5.memSize ∧ ∃ c2, k5.l2 = some c2) ∧
    0 ≤ effectiveAddress (machine 4 [(1, 5)] []) 1 0 ∧
    effectiveAddress (machine 4 [(1, 5)] []) 1 0 < (machine 4 [(1, 5)] []).memSize ∧
    (machine 4 [(1, 5)] []).l2 = none :=
  ⟨⟨by decide, by decide, _, rfl⟩, by decide, by decide, rfl⟩

theorem witness_AddressSplit : cacheConfigValid ⟨6, 2, 1⟩ = true := by decide

theorem witness_ResidentAccessPromotes :
    SetOk 2 [⟨some 10, 2⟩, ⟨some 20, 1⟩] ∧
    ([⟨some 10, 2⟩, ⟨some 20, 1⟩] : CacheSet)[1]? = some ⟨some 20, 1⟩ := by decide

theorem witness_FillTakesLowestAbsentSlot :
    (∀ x ∈ ([⟨some 1, 1⟩, ⟨none, 0⟩, ⟨none, 0⟩] : CacheSet), x.tag ≠ some 2) ∧
    ([⟨some 1, 1⟩, ⟨none, 0⟩, ⟨none, 0⟩] : CacheSet)[1]? = some ⟨none, 0⟩ ∧
    ∀ (j : Nat) (x : Slot), j < 1 →
      ([⟨some 1, 1⟩, ⟨none, 0⟩, ⟨none, 0⟩] : CacheSet)[j]? = some x → x.tag ≠ none := by
  refine ⟨by decide, by decide, fun j x hj hx => ?_⟩
  obtain rfl : j = 0 := by omega
  obtain rfl : (⟨some 1, 1⟩ : Slot) = x := by simpa using hx
  decide

/-- A tie between slots 1 and 2. -/
theorem witness_EvictionTakesStalestSlot :
    (∀ x ∈ ([⟨some 4, 1⟩, ⟨some 2, 2⟩, ⟨some 3, 2⟩] : CacheSet), x.tag ≠ some 5) ∧
    (∀ x ∈ ([⟨some 4, 1⟩, ⟨some 2, 2⟩, ⟨some 3, 2⟩] : CacheSet), x.tag ≠ none) ∧
    ([⟨some 4, 1⟩, ⟨some 2, 2⟩, ⟨some 3, 2⟩] : CacheSet)[1]? = some ⟨some 2, 2⟩ ∧
    (∀ x ∈ ([⟨some 4, 1⟩, ⟨some 2, 2⟩, ⟨some 3, 2⟩] : CacheSet), x.recency ≤ 2) ∧
    ∀ (j : Nat) (x : Slot), j < 1 →
      ([⟨some 4, 1⟩, ⟨some 2, 2⟩, ⟨some 3, 2⟩] : CacheSet)[j]? = some x → x.recency < 2 := by
  refine ⟨by decide, by decide, by decide, by decide, fun j x hj hx => ?_⟩
  obtain rfl : j = 0 := by omega
  obtain rfl : (⟨some 4, 1⟩ : Slot) = x := by simpa using hx
  decide

/-- A full set in which the access of tag 30 replaces tag 20. -/
theorem witness_AccessKeepsSetWellFormed :
    SetOk 2 [⟨some 10, 0⟩, ⟨some 20, 2⟩] ∧
    ([⟨some 10, 0⟩, ⟨some 20, 2⟩] : CacheSet)[1]? = some ⟨some 20, 2⟩ ∧
    (accessSet [⟨some 10, 0⟩, ⟨some 20, 2⟩] 30).2[1]? = some ⟨some 30, 1⟩ := by decide

theorem witness_LevelAccessTouchesOneSet : 0 ≠ lineOf (emptyCache ⟨4, 1, 1⟩).config 3 := by decide

theorem witness_AccessedBlockIsResident :
    cacheConfigValid (emptyCache ⟨8, 2, 2⟩).config = true ∧ CacheOk (emptyCache ⟨8, 2, 2⟩) ∧
    4 / (emptyCache ⟨8, 2, 2⟩).config.blockSize = 5 / (emptyCache ⟨8, 2, 2⟩).config.blockSize := by decide

theorem witness_SourceCacheScenarios :
    ((10 : Nat) ≠ 20 ∧ (10 : Nat) ≠ 30 ∧ (20 : Nat) ≠ 30) ∧
    cacheConfigValid ⟨4, 1, 1⟩ = true ∧ lineOf ⟨4, 1, 1⟩ 3 = lineOf ⟨4, 1, 1⟩ 7 ∧
    tagOf ⟨4, 1, 1⟩ 3 ≠ tagOf ⟨4, 1, 1⟩ 7 := by decide

theorem witness_PartialBumpIsUnobservable : SetOk 3 [⟨some 1, 1⟩, ⟨none, 0⟩, ⟨none, 0⟩] := by decide

/-- A running machine about to store; also for StepKeepsMemoryCanonical and StepKeepsCachesWellFormed. -/
theorem witness_StepKeepsInvariant :
    Inv (machine 5 [(1, 100), (2, 0xCAFE)] [(5, 0xA503)]) ∧
    ∃ t, step (machine 5 [(1, 100), (2, 0xCAFE)] [(5, 0xA503)]) = .next t := by
  refine ⟨⟨by decide, by decide, by decide, by decide, ?_, ?_, trivial⟩, exists_next _ (by decide)⟩
  · intro C hC
    cases hC
  · intro e he
    cases he

theorem witness_BootGivesResetState :
    cacheConfigs [4, 2, 2, 16, 2, 2] = some (⟨4, 2, 2⟩, some ⟨16, 2, 2⟩) ∧ 65472 ≤ 65472 ∧
    ([0x20A0, 0, 0x2107] : List Word).length ≤ 3 := by decide

/-- At the bound of the memory size, and one above it. -/
theorem witness_ConfigurationAcceptedExactlyWhenValid :
    ValidInts [6, 2, 1] ∧ 65472 ≤ 65472 ∧ ([0x4000] : List Word).length ≤ 65472 ∧
    ¬ ValidInts [4, 1, 1, 8] ∧ 65472 < 65473 := by
  refine ⟨.inl ⟨6, 2, 1, rfl, by decide⟩, by decide, by decide, ?_, by decide⟩
  rintro (⟨s, a, b, h, -⟩ | ⟨s1, a1, b1, s2, a2, b2, h, -⟩) <;> simp at h

theorem witness_OversizeImageRefused :
    (cacheConfigs [4, 1, 1]).isSome = true ∧ 1 < ([1, 2] : List Word).length := by decide

theorem witness_BootHoldsInvariant : ∃ s, (boot 3 [4, 1, 1] [0x4000]).outcome = .ok s :=
  ⟨_, rfl⟩

theorem witness_AssembledBranchReachesTarget :
    ∃ w, assemble 20 (.jeq 1 2 24) = some w ∧ (machine 20 [] []).pc.toNat = 20 ∧
      (machine 20 [] []).reg 1 = (machine 20 [] []).reg 2 := ⟨0xC503, by decide⟩

theorem witness_AssembledHaltHalts :
    ∃ w, assemble 6 .halt = some w ∧ (machine 6 [] []).pc.toNat = 6 := ⟨0x4006, by decide⟩

/-- Two levels with an image that does not fit, an invalid configuration, and a machine that starts. -/
theorem witness_ConfigurationReportedBeforeFirstStep :
    cacheConfigs [4, 2, 2, 16, 2, 2] = some (⟨4, 2, 2⟩, some ⟨16, 2, 2⟩) ∧ 0 ≤ 65472 ∧
    (¬ ValidInts [] ∨ 65472 < 0) ∧ ∃ s, (boot 1 [4, 1, 1] [0x4000]).outcome = .ok s := by
  refine ⟨by decide, by decide, .inl ?_, _, rfl⟩
  rintro (⟨s, a, b, h, -⟩ | ⟨s1, a1, b1, s2, a2, b2, h, -⟩) <;> simp at h

end Sys2Proof.Tests
end

section
/-! The value of the 7-bit immediate (30_encoding.md R56). -/

namespace Sys2Proof

theorem getLsbD_six_eq_decide (u : BitVec 7) : u.getLsbD 6 = decide (64 ≤ u.toNat) := by
  rw [← BitVec.msb_eq_decide u, BitVec.msb_eq_getLsbD_last]

theorem sext7_of_bit_six_clear {u : BitVec 7} (h : u.getLsbD 6 = false) : sext7 u = u.toNat :=
  BitVec.toInt_eq_toNat_of_msb (u.msb_eq_getLsbD_last.trans h)

theorem sext7_of_bit_six_set {u : BitVec 7} (h : u.getLsbD 6 = true) : sext7 u = u.toNat - 128 := by
  have hmsb : u.msb = true := u.msb_eq_getLsbD_last.trans h
  simp [sext7, BitVec.toInt_eq_msb_cond, hmsb]

/-- Settles O5, by the value of bit 6: it decides on which side of 64 the field lies, and so which formula
applies and how the low six bits differ from the field. -/
theorem immediateFieldValue : Obligations.ImmediateFieldValue := by
  intro u
  have hbit := getLsbD_six_eq_decide u
  have hlt : u.toNat < 128 := u.isLt
  cases h : u.getLsbD 6 with
  | false =>
    have hsmall : u.toNat < 64 := Nat.not_le.mp (of_decide_eq_false (hbit.symm.trans h))
    rw [sext7_of_bit_six_clear h, Nat.mod_eq_of_lt hsmall]
    exact ⟨fun _ => ⟨rfl, by omega, by omega⟩, nofun, by simp⟩
  | true =>
    have hlarge : 64 ≤ u.toNat := of_decide_eq_true (hbit.symm.trans h)
    have hlow : u.toNat % 64 = u.toNat - 64 := by omega
    rw [sext7_of_bit_six_set h, hlow]
    exact ⟨nofun, fun _ => ⟨rfl, by omega, by omega⟩, by simp only [if_true]; omega⟩

end Sys2Proof
end

section
/-! The decoder on the words of the three-register family (30_encoding.md R52, R58; 40_three_register.md R76):
the fields of a word read back, and the row that its suffix selects. -/

namespace Sys2Proof

/-- The field that stands right above the low part of a word. -/
theorem extractLsb'_middle {u v w : Nat} (hi : BitVec u) (mid : BitVec v) (lo : BitVec w) :
    (hi ++ mid ++ lo).extractLsb' w v = mid := by
  rw [BitVec.extractLsb'_append_eq_of_le le_rfl, Nat.sub_self, BitVec.extractLsb'_append_eq_right]

/-! The fields of format R and of the reserved words. -/

section Fields

variable (rA rB rD : Reg) (ignored : BitVec 9) (fn : BitVec 4)

@[simp] theorem formatR_suffix : (formatR rA rB rD fn).extractLsb' 0 4 = fn :=
  BitVec.extractLsb'_append_eq_right

@[simp] theorem regField_formatR_rD : regField (formatR rA rB rD fn) 4 = rD :=
  congrArg BitVec.toFin (extractLsb'_middle (0b000#3 ++ regBits rA ++ regBits rB) _ fn)

/-- The bits from 7 up are `000 rA rB`. -/
theorem formatR_above_rD {start len : Nat} (h : 7 ≤ start) :
    (formatR rA rB rD fn).extractLsb' start len =
      (0b000#3 ++ regBits rA ++ regBits rB).extractLsb' (start - 7) len := by
  unfold formatR
  rw [BitVec.extractLsb'_append_eq_of_le (by omega), BitVec.extractLsb'_append_eq_of_le (by omega),
    Nat.sub_sub]

@[simp] theorem regField_formatR_rB : regField (formatR rA rB rD fn) 7 = rB :=
  congrArg BitVec.toFin
    ((formatR_above_rD rA rB rD fn (by decide)).trans BitVec.extractLsb'_append_eq_right)

@[simp] theorem regField_formatR_rA : regField (formatR rA rB rD fn) 10 = rA :=
  congrArg BitVec.toFin
    ((formatR_above_rD rA rB rD fn (by decide)).trans (extractLsb'_middle 0b000#3 _ _))

@[simp] theorem formatR_family : (formatR rA rB rD fn).extractLsb' 13 3 = 0b000#3 :=
  (formatR_above_rD rA rB rD fn (by decide)).trans
    ((BitVec.extractLsb'_append_eq_of_le (by decide)).trans BitVec.extractLsb'_append_eq_left)

@[simp] theorem formatReserved_suffix : (formatReserved ignored fn).extractLsb' 0 4 = fn :=
  BitVec.extractLsb'_append_eq_right

@[simp] theorem formatReserved_family : (formatReserved ignored fn).extractLsb' 13 3 = 0b000#3 :=
  (BitVec.extractLsb'_append_eq_of_le (by decide)).trans BitVec.extractLsb'_append_eq_left

end Fields

/-- The top bits `000` select the three-register family (30_encoding.md R51). -/
theorem decodeWord_of_family_zero {w : Word} (h : w.extractLsb' 13 3 = 0b000#3) :
    decodeWord w = decodeThreeRegister w := by
  simp [decodeWord, h]

/-! The three-operand instructions: the suffix selects, the fields are the operands. -/

section Operands

variable (rD rA rB : Reg)

theorem decodeWord_formatR (fn : BitVec 4) :
    decodeWord (formatR rA rB rD fn) = decodeThreeRegister (formatR rA rB rD fn) :=
  decodeWord_of_family_zero (formatR_family rA rB rD fn)

theorem decodeWord_encode_add : decodeWord (encode (.add rD rA rB)) = .add rD rA rB := by
  simp [encode, decodeWord_formatR, decodeThreeRegister]

theorem decodeWord_encode_or : decodeWord (encode (.or rD rA rB)) = .or rD rA rB := by
  simp [encode, decodeWord_formatR, decodeThreeRegister]

theorem decodeWord_encode_and : decodeWord (encode (.and rD rA rB)) = .and rD rA rB := by
  simp [encode, decodeWord_formatR, decodeThreeRegister]

theorem decodeWord_encode_slt : decodeWord (encode (.slt rD rA rB)) = .slt rD rA rB := by
  simp [encode, decodeWord_formatR, decodeThreeRegister]

end Operands

/-- The five reserved rows of the opcode table (40_three_register.md R76). -/
abbrev reservedRows : List Opcode :=
  [.reservedNop0101, .reservedNop011x, .reservedNop1001, .reservedNop101x, .reservedNop11xx]

/-- The ten suffixes that no instruction of the three-register family has (40_three_register.md R76). -/
abbrev reservedSuffixes : List Nat :=
  [0b0101, 0b0110, 0b0111, 0b1001, 0b1010, 0b1011, 0b1100, 0b1101, 0b1110, 0b1111]

/-- One case per suffix of R76. -/
theorem decodeThreeRegister_opcode_of_reserved {w : Word}
    (h : (w.extractLsb' 0 4).toNat ∈ reservedSuffixes) :
    (decodeThreeRegister w).opcode ∈ reservedRows := by
  simp only [List.mem_cons, List.not_mem_nil, or_false] at h
  obtain h | h | h | h | h | h | h | h | h | h := h <;> simp [decodeThreeRegister, h, Instr.opcode]

theorem decodeWord_formatReserved_opcode (ignored : BitVec 9) (fn : BitVec 4)
    (h : fn.toNat ∈ reservedSuffixes) :
    (decodeWord (formatReserved ignored fn)).opcode ∈ reservedRows := by
  rw [decodeWord_of_family_zero (formatReserved_family ignored fn)]
  exact decodeThreeRegister_opcode_of_reserved (by rwa [formatReserved_suffix])

end Sys2Proof
end

section
/-! The three-register family: `pc + 1`, the result of a three-operand instruction, and the no-operation of a
reserved row (40_three_register.md R70 to R76). -/

namespace Sys2Proof.Machine

/-! `advance` -/

/-- `pc <- pc + 1` as a number (10_state.md R14). -/
theorem advance_pc_toNat (s : State) : s.advance.pc.toNat = (s.pc.toNat + 1) % 65536 := by
  have h := mod16_toNat (s.pc.toNat + 1)
  rw [advance_pc]
  omega

theorem advance_frame (s : State) : OnlyRegsAndPc [] s s.advance :=
  ⟨fun r _ => advance_reg s r, sameMemory_of_eq s _ rfl rfl, ⟨rfl, rfl, rfl⟩, rfl⟩

/-! `writeResult` -/

@[simp] theorem writeResult_reg_same (s : State) (r : Reg) (v : Word) : (writeResult s r v).reg r = v :=
  reg_setReg_same s r v

theorem writeResult_pc_toNat (s : State) (r : Reg) (v : Word) :
    (writeResult s r v).pc.toNat = (s.pc.toNat + 1) % 65536 :=
  advance_pc_toNat (s.setReg r v)

theorem writeResult_frame (s : State) (r : Reg) (v : Word) : OnlyRegsAndPc [r] s (writeResult s r v) :=
  ⟨fun j hj => reg_setReg_other s r j v (List.ne_of_not_mem_cons hj), sameMemory_of_eq s _ rfl rfl,
    ⟨rfl, rfl, rfl⟩, rfl⟩

/-- An instruction that answers `writeResult` completes: what holds of the value holds of the destination, `pc`
advances, and nothing else changes. -/
theorem completes_of_writeResult {i : Instr} {s : State} {r : Reg} {v : Word} (P : Word → Prop)
    (hexec : exec i s = .next (writeResult s r v)) (hv : P v) :
    ∃ t, exec i s = .next t ∧ P (t.reg r) ∧ t.pc.toNat = (s.pc.toNat + 1) % 65536 ∧
      OnlyRegsAndPc [r] s t :=
  ⟨_, hexec, (writeResult_reg_same s r v).symm ▸ hv, writeResult_pc_toNat s r v, writeResult_frame s r v⟩

/-! What each instruction writes. -/

section Results

variable (rD rA rB : Reg) (s : State)

theorem exec_add : exec (.add rD rA rB) s =
    .next (writeResult s rD (mod16 ((s.reg rA).toNat + (s.reg rB).toNat))) := rfl

theorem exec_or : exec (.or rD rA rB) s = .next (writeResult s rD (s.reg rA ||| s.reg rB)) := rfl

theorem exec_and : exec (.and rD rA rB) s = .next (writeResult s rD (s.reg rA &&& s.reg rB)) := rfl

theorem exec_slt : exec (.slt rD rA rB) s =
    .next (writeResult s rD (setLess (s.reg rA) (s.reg rB))) := rfl

end Results

/-- A sum of two words, stored mod 2^16, as a number (00_scope.md R7). -/
theorem mod16_add_toNat (a b : Word) : (mod16 (a.toNat + b.toNat)).toNat = (a.toNat + b.toNat) % 65536 := by
  have h := mod16_toNat (a.toNat + b.toNat)
  omega

theorem setLess_toNat (a b : Word) : (setLess a b).toNat = if a.toNat < b.toNat then 1 else 0 := by
  unfold setLess
  split <;> rfl

/-- The five reserved rows have one meaning, `pc + 1` (40_three_register.md R76). -/
theorem exec_of_reserved {i : Instr} (s : State) (h : i.opcode ∈ reservedRows) :
    exec i s = .next s.advance := by
  cases i with
  | reservedNop0101 _ => rfl
  | reservedNop011x _ _ => rfl
  | reservedNop1001 _ => rfl
  | reservedNop101x _ _ => rfl
  | reservedNop11xx _ _ => rfl
  | _ => simp [Instr.opcode] at h

/-! The statements. -/

/-- Settles O6: `add` answers `writeResult` of the sum mod 2^16. -/
theorem addEffect : Obligations.AddEffect := fun rD rA rB s =>
  ⟨decodeWord_encode_add rD rA rB,
    completes_of_writeResult (fun v => v.toNat = ((s.reg rA).toNat + (s.reg rB).toNat) % 65536)
      (exec_add rD rA rB s) (mod16_add_toNat _ _)⟩

/-- Settles O8: `or` answers `writeResult` of the bitwise or. -/
theorem orEffect : Obligations.OrEffect := fun rD rA rB s =>
  ⟨decodeWord_encode_or rD rA rB,
    completes_of_writeResult
      (fun v => ∀ k, v.getLsbD k = ((s.reg rA).getLsbD k || (s.reg rB).getLsbD k))
      (exec_or rD rA rB s) (fun _ => BitVec.getLsbD_or)⟩

/-- Settles O9: `and` answers `writeResult` of the bitwise and. -/
theorem andEffect : Obligations.AndEffect := fun rD rA rB s =>
  ⟨decodeWord_encode_and rD rA rB,
    completes_of_writeResult
      (fun v => ∀ k, v.getLsbD k = ((s.reg rA).getLsbD k && (s.reg rB).getLsbD k))
      (exec_and rD rA rB s) (fun _ => BitVec.getLsbD_and)⟩

/-- Settles O10: `slt` answers `writeResult` of the unsigned comparison. -/
theorem sltEffect : Obligations.SltEffect := fun rD rA rB s =>
  ⟨decodeWord_encode_slt rD rA rB,
    completes_of_writeResult
      (fun v => v.toNat = if (s.reg rA).toNat < (s.reg rB).toNat then 1 else 0)
      (exec_slt rD rA rB s) (setLess_toNat _ _)⟩

/-- Settles O12: the suffix selects a reserved row whatever the ignored bits are, and each reserved row only
advances `pc`. -/
theorem reservedWordsAreNops : Obligations.ReservedWordsAreNops :=
  ⟨decodeWord_formatReserved_opcode,
    fun _ s h => ⟨_, exec_of_reserved s h, advance_pc_toNat s, advance_frame s⟩⟩

end Sys2Proof.Machine
end

section
/-! The decoder on the words of format I (30_encoding.md R53, R56): the fields of a word read back, and the
instruction that the top bits select. -/

namespace Sys2Proof

/-- The encoder gives back the field that an immediate came from (30_encoding.md R56, R62). -/
@[simp] theorem ofInt_sext7 (imm7 : BitVec 7) : BitVec.ofInt 7 (sext7 imm7) = imm7 :=
  BitVec.ofInt_toInt

/-! The fields of format I. -/

section Fields

variable (op : BitVec 3) (rA rB : Reg) (imm : Int)

/-- The bits from 7 up are `op rA rB`. -/
theorem formatI_above_imm {start len : Nat} (h : 7 ≤ start) :
    (formatI op rA rB imm).extractLsb' start len =
      (op ++ regBits rA ++ regBits rB).extractLsb' (start - 7) len :=
  BitVec.extractLsb'_append_eq_of_le h

@[simp] theorem immField_formatI : immField (formatI op rA rB imm) = sext7 (BitVec.ofInt 7 imm) :=
  congrArg sext7 BitVec.extractLsb'_append_eq_right

@[simp] theorem regField_formatI_rB : regField (formatI op rA rB imm) 7 = rB :=
  congrArg BitVec.toFin
    ((formatI_above_imm op rA rB imm le_rfl).trans BitVec.extractLsb'_append_eq_right)

@[simp] theorem regField_formatI_rA : regField (formatI op rA rB imm) 10 = rA :=
  congrArg BitVec.toFin
    ((formatI_above_imm op rA rB imm (by decide)).trans (extractLsb'_middle op _ _))

@[simp] theorem formatI_family : (formatI op rA rB imm).extractLsb' 13 3 = op :=
  (formatI_above_imm op rA rB imm (by decide)).trans
    ((BitVec.extractLsb'_append_eq_of_le (by decide)).trans BitVec.extractLsb'_append_eq_left)

theorem formatI_sext7 (imm7 : BitVec 7) :
    formatI op rA rB (sext7 imm7) = op ++ regBits rA ++ regBits rB ++ imm7 := by
  rw [formatI, ofInt_sext7]

end Fields

/-- The top bits `001` select `addi`, and the fields are its operands. -/
theorem decodeWord_addi (rB rA : Reg) (imm7 : BitVec 7) :
    decodeWord (0b001#3 ++ regBits rA ++ regBits rB ++ imm7) = .addi rB rA (sext7 imm7) := by
  rw [← formatI_sext7]
  simp [decodeWord]

end Sys2Proof
end

section
/-! The two-register-immediate family: the result of `addi` (41_two_register_immediate.md R80). -/

namespace Sys2Proof.Machine

theorem exec_addi (rB rA : Reg) (imm : Int) (s : State) : exec (.addi rB rA imm) s =
    .next (writeResult s rB (mod16 ((s.reg rA).toNat + imm))) := rfl

/-- Settles O13: `addi` answers `writeResult` of the sum with the immediate mod 2^16. -/
theorem addiEffect : Obligations.AddiEffect := fun rB rA imm7 s =>
  ⟨decodeWord_addi rB rA imm7,
    completes_of_writeResult (fun v => (v.toNat : Int) = ((s.reg rA).toNat + sext7 imm7) % 65536)
      (exec_addi rB rA _ s) (mod16_toNat _)⟩

end Sys2Proof.Machine
end

section
/-! The decoder on the words of `lw` and `sw` (30_encoding.md R53, R58; 42_load_store.md R86, R87). -/

namespace Sys2Proof

/-- The top bits `100` select `lw`, and the fields are its operands. -/
theorem decodeWord_lw (rB rA : Reg) (imm7 : BitVec 7) :
    decodeWord (0b100#3 ++ regBits rA ++ regBits rB ++ imm7) = .lw rB rA (sext7 imm7) := by
  rw [← formatI_sext7]
  simp [decodeWord]

/-- The top bits `101` select `sw`, and the fields are its operands. -/
theorem decodeWord_sw (rB rA : Reg) (imm7 : BitVec 7) :
    decodeWord (0b101#3 ++ regBits rA ++ regBits rB ++ imm7) = .sw rB rA (sext7 imm7) := by
  rw [← formatI_sext7]
  simp [decodeWord]

end Sys2Proof
end

section
/-! The load/store family: a read after a store, the end that both instructions share, and their two outcomes
(42_load_store.md R86, R87; 20_memory.md R31, R32). -/

namespace Sys2Proof.Machine

/-- The state after a store inside memory (20_memory.md R32). -/
def storeWord (s : State) (a : Int) (v : Word) : State := { s with mem := s.mem.write a.toNat v }

section StoreWord

variable {s : State} {a : Int} (v : Word)

theorem memWrite_eq_storeWord (h0 : 0 ≤ a) (h1 : a < s.memSize) : s.memWrite a v = some (storeWord s a v) :=
  memWrite_of_inRange s a v h0 h1

theorem memRead_storeWord_same (h0 : 0 ≤ a) (h1 : a < s.memSize) : (storeWord s a v).memRead a = some v :=
  (memRead_of_inRange (storeWord s a v) a h0 h1).trans (congrArg some (read_write_same s.mem a.toNat v))

/-- No other address changes: one inside memory is another cell, and one outside raises before and after (a
negative one too, whose truncation to 0 no read sees). -/
theorem memRead_storeWord_other (h0 : 0 ≤ a) {b : Int} (hne : b ≠ a) :
    (storeWord s a v).memRead b = s.memRead b := by
  by_cases hb : 0 ≤ b ∧ b < s.memSize
  · obtain ⟨hb0, hb1⟩ := hb
    have hcell : b.toNat ≠ a.toNat := by omega
    rw [memRead_of_inRange (storeWord s a v) b hb0 hb1, memRead_of_inRange s b hb0 hb1]
    exact congrArg some (read_write_other s.mem a.toNat b.toNat v hcell)
  · have hout : b < 0 ∨ s.memSize ≤ b := by omega
    rw [memRead_of_not_inRange (storeWord s a v) b hout, memRead_of_not_inRange s b hout]

end StoreWord

/-- The end of a load or store that stays in memory: the cache access, then `pc <- pc + 1`
(20_memory.md R43). -/
def completeAccess (s : State) (addr : Nat) (isStore : Bool) : State :=
  (cacheAccess s s.pc addr isStore).advance

section CompleteAccess

variable (s : State) (addr : Nat) (isStore : Bool)

@[simp] theorem completeAccess_reg (r : Reg) : (completeAccess s addr isStore).reg r = s.reg r :=
  cacheAccess_reg s s.pc addr isStore r

@[simp] theorem completeAccess_mem : (completeAccess s addr isStore).mem = s.mem :=
  cacheAccess_mem s s.pc addr isStore

@[simp] theorem completeAccess_memSize : (completeAccess s addr isStore).memSize = s.memSize :=
  cacheAccess_memSize s s.pc addr isStore

@[simp] theorem completeAccess_status : (completeAccess s addr isStore).status = s.status :=
  cacheAccess_status s s.pc addr isStore

@[simp] theorem completeAccess_memRead (a : Int) :
    (completeAccess s addr isStore).memRead a = s.memRead a :=
  memRead_congr s _ (completeAccess_mem s addr isStore) (completeAccess_memSize s addr isStore) a

theorem completeAccess_pc_toNat :
    (completeAccess s addr isStore).pc.toNat = (s.pc.toNat + 1) % 65536 := by
  rw [completeAccess, advance_pc_toNat, cacheAccess_pc]

theorem completeAccess_caches : CachesAccessed s (completeAccess s addr isStore) addr isStore :=
  cacheAccess_caches s addr isStore

end CompleteAccess

/-! The two outcomes of each instruction: inside memory it completes, outside it raises. -/

section Outcomes

variable {rB rA : Reg} {imm : Int} {s : State}

theorem exec_lw_of_inRange (h0 : 0 ≤ effectiveAddress s rA imm)
    (h1 : effectiveAddress s rA imm < s.memSize) :
    exec (.lw rB rA imm) s =
      .next (completeAccess (s.setReg rB (s.mem.read (effectiveAddress s rA imm).toNat))
        (effectiveAddress s rA imm).toNat false) := by
  simp only [exec, execLw, memRead_of_inRange s _ h0 h1]
  rfl

theorem exec_lw_of_not_inRange
    (h : effectiveAddress s rA imm < 0 ∨ s.memSize ≤ effectiveAddress s rA imm) :
    exec (.lw rB rA imm) s = .next (s.raise (.addressRange (effectiveAddress s rA imm))) := by
  simp only [exec, execLw, memRead_of_not_inRange s _ h]

theorem exec_sw_of_inRange (h0 : 0 ≤ effectiveAddress s rA imm)
    (h1 : effectiveAddress s rA imm < s.memSize) :
    exec (.sw rB rA imm) s =
      .next (completeAccess (storeWord s (effectiveAddress s rA imm) (s.reg rB))
        (effectiveAddress s rA imm).toNat true) := by
  simp only [exec, execSw, memWrite_eq_storeWord _ h0 h1]
  rfl

theorem exec_sw_of_not_inRange
    (h : effectiveAddress s rA imm < 0 ∨ s.memSize ≤ effectiveAddress s rA imm) :
    exec (.sw rB rA imm) s = .next (s.raise (.addressRange (effectiveAddress s rA imm))) := by
  simp only [exec, execSw, memWrite_of_not_inRange s _ _ h]

end Outcomes

/-! The statements. The register write of a load and the memory write of a store come before the cache access
and leave `pc`, caches and trace alone, so `completeAccess_caches` of the state between them is the claim about
`s`. -/

/-- Settles O15: inside memory `lw` is the register write and then `completeAccess`; outside it raises. -/
theorem loadEffect : Obligations.LoadEffect := by
  intro rB rA imm7 s
  refine ⟨decodeWord_lw rB rA imm7, ?_, exec_lw_of_not_inRange⟩
  rintro ⟨h0, h1⟩
  refine ⟨_, exec_lw_of_inRange h0 h1, ?word, completeAccess_pc_toNat _ _ _, completeAccess_status _ _ _,
    ?frame, sameMemory_of_eq _ _ (completeAccess_mem _ _ _) (completeAccess_memSize _ _ _),
    completeAccess_caches _ _ _⟩
  case word => rw [completeAccess_reg, reg_setReg_same]
  case frame =>
    intro r hr
    rw [completeAccess_reg, reg_setReg_other s rB r _ (List.ne_of_not_mem_cons hr)]

/-- Settles O16: inside memory `sw` is the memory write and then `completeAccess`; outside it raises. -/
theorem storeEffect : Obligations.StoreEffect := by
  intro rB rA imm7 s
  refine ⟨decodeWord_sw rB rA imm7, ?_, exec_sw_of_not_inRange⟩
  rintro ⟨h0, h1⟩
  refine ⟨_, exec_sw_of_inRange h0 h1, ?stored, ?others, completeAccess_memSize _ _ _,
    completeAccess_pc_toNat _ _ _, completeAccess_status _ _ _, fun r _ => completeAccess_reg _ _ _ r,
    completeAccess_caches _ _ _⟩
  case stored => rw [completeAccess_memRead, memRead_storeWord_same _ h0 h1]
  case others =>
    intro a hne
    rw [completeAccess_memRead, memRead_storeWord_other _ h0 hne]

end Sys2Proof.Machine
end

section
/-! The decoder on the words of `jeq` (30_encoding.md R53, R58; 43_branch_equal.md R90). -/

namespace Sys2Proof

/-- The top bits `110` select `jeq`, and the fields are its operands. -/
theorem decodeWord_jeq (rA rB : Reg) (imm7 : BitVec 7) :
    decodeWord (0b110#3 ++ regBits rA ++ regBits rB ++ imm7) = .jeq rA rB (sext7 imm7) := by
  rw [← formatI_sext7]
  simp [decodeWord]

end Sys2Proof
end

section
/-! The branch-equal family: a `pc` write, and the target that the comparison chooses (43_branch_equal.md R90,
R91). -/

namespace Sys2Proof.Machine

/-- `pc <- t` as a number: the target mod 2^16, non-negative also for a negative `t` (10_state.md R14). -/
theorem setPc_pc_toNat (s : State) (t : Int) : ((s.setPc t).pc.toNat : Int) = t % 65536 :=
  mod16_toNat t

theorem setPc_frame (s : State) (t : Int) : OnlyRegsAndPc [] s (s.setPc t) :=
  ⟨fun r _ => setPc_reg s t r, sameMemory_of_eq s _ rfl rfl, ⟨rfl, rfl, rfl⟩, rfl⟩

/-- Taken or not, `jeq` is one `pc` write: the branch only chooses the target (43_branch_equal.md R90). -/
theorem exec_jeq (rA rB : Reg) (imm : Int) (s : State) : exec (.jeq rA rB imm) s =
    .next (s.setPc (if s.reg rA = s.reg rB then s.pc.toNat + 1 + imm else s.pc.toNat + 1)) :=
  congrArg Host.Outcome.next (apply_ite s.setPc _ _ _).symm

/-- Settles O18: `jeq` answers the `pc` write of the target that the comparison chooses. -/
theorem branchEqualEffect : Obligations.BranchEqualEffect := fun rA rB imm7 s =>
  ⟨decodeWord_jeq rA rB imm7, _, exec_jeq rA rB (sext7 imm7) s, setPc_pc_toNat s _, setPc_frame s _⟩

end Sys2Proof.Machine
end

section
/-! The decoder on the words of format J (30_encoding.md R54, R58, R59; 44_jump.md R93). -/

namespace Sys2Proof

@[simp] theorem jumpWord_family (op : BitVec 3) (imm13 : BitVec 13) :
    BitVec.extractLsb' 13 3 (op ++ imm13 : Word) = op :=
  BitVec.extractLsb'_append_eq_left

@[simp] theorem targetField_jumpWord (op : BitVec 3) (imm13 : BitVec 13) :
    targetField (op ++ imm13) = imm13.toNat :=
  congrArg BitVec.toNat BitVec.extractLsb'_append_eq_right

/-- The top bits `010` select `j`, and the low bits are its target. -/
theorem decodeWord_j (imm13 : BitVec 13) : decodeWord (0b010#3 ++ imm13) = .j imm13.toNat := by
  simp [decodeWord]

end Sys2Proof
end

section
/-! The jump family: the halt at the instruction's own address, and the jump to any other (44_jump.md R93,
R95). -/

namespace Sys2Proof.Machine

theorem jumpOrHalt_of_eq {s : State} {target : Nat} (h : target = s.pc.toNat) :
    jumpOrHalt s target = s.halt := if_pos h

theorem jumpOrHalt_of_ne {s : State} {target : Nat} (h : target ≠ s.pc.toNat) :
    jumpOrHalt s target = s.setPc target := if_neg h

/-- A 13-bit target is below 2^16, so `pc` holds the target itself (44_jump.md R93). -/
theorem setPc_target_toNat (s : State) (imm13 : BitVec 13) :
    (s.setPc imm13.toNat).pc.toNat = imm13.toNat := by
  have hmod := setPc_pc_toNat s imm13.toNat
  have hlt : imm13.toNat < 8192 := imm13.isLt
  omega

theorem exec_j (target : Nat) (s : State) : exec (.j target) s = .next (jumpOrHalt s target) := rfl

/-- Settles O19: `j` answers the halt when the target is the whole `pc`, and the `pc` write otherwise. -/
theorem jumpEffect : Obligations.JumpEffect := by
  intro imm13 s
  refine ⟨decodeWord_j imm13, _, exec_j imm13.toNat s, ?_⟩
  split
  case isTrue hself => exact jumpOrHalt_of_eq hself
  case isFalse hother =>
    rw [jumpOrHalt_of_ne hother]
    exact ⟨setPc_target_toNat s imm13, setPc_frame s _⟩

end Sys2Proof.Machine
end

section
/-! The address split (50_cache.md R102): `numLines` is positive, and block number, line and tag determine each
other. -/

namespace Sys2Proof.Machine

theorem cacheConfigValid_iff (c : CacheConfig) : cacheConfigValid c = true ↔
    0 < c.size ∧ 0 < c.assoc ∧ 0 < c.blockSize ∧ c.assoc * c.blockSize ∣ c.size := by
  simp [cacheConfigValid, Nat.dvd_iff_mod_eq_zero, and_assoc]

/-- A valid cache has a line: its size is a positive multiple of `associativity * blockSize`
(00_scope.md R6). -/
theorem cacheNumLines_pos {c : CacheConfig} (h : cacheConfigValid c = true) : 0 < cacheNumLines c := by
  obtain ⟨hsize, hassoc, hblock, hdvd⟩ := (cacheConfigValid_iff c).1 h
  exact Nat.div_pos (Nat.le_of_dvd hsize hdvd) (Nat.mul_pos hassoc hblock)

theorem lineOf_lt {c : CacheConfig} (h : cacheConfigValid c = true) (addr : Nat) :
    lineOf c addr < cacheNumLines c :=
  Nat.mod_lt _ (cacheNumLines_pos h)

theorem blockNumber_eq_tag_mul_add_line (c : CacheConfig) (addr : Nat) :
    blockNumber c addr = tagOf c addr * cacheNumLines c + lineOf c addr :=
  (Nat.div_add_mod' _ _).symm

/-- Line and tag together name the block, for any configuration. -/
theorem line_and_tag_eq_iff (c : CacheConfig) (a b : Nat) :
    (lineOf c a = lineOf c b ∧ tagOf c a = tagOf c b) ↔ blockNumber c a = blockNumber c b := by
  constructor
  · rintro ⟨hline, htag⟩
    rw [blockNumber_eq_tag_mul_add_line c a, blockNumber_eq_tag_mul_add_line c b, hline, htag]
  · intro hblock
    exact ⟨congrArg (· % cacheNumLines c) hblock, congrArg (· / cacheNumLines c) hblock⟩

/-- Settles O40: division with remainder by the positive number of lines. -/
theorem addressSplit : Obligations.AddressSplit := fun c a b hc =>
  ⟨blockNumber_eq_tag_mul_add_line c a, lineOf_lt hc a, line_and_tag_eq_iff c a b⟩

end Sys2Proof.Machine
end

section
/-! Which of the three cases of an access applies (50_cache.md R103 to R109), from what the set holds. -/

namespace Sys2Proof.Machine

variable {S : CacheSet} {tag : Nat}

theorem residentIdx_eq_none_of_forall (h : ∀ x ∈ S, x.tag ≠ some tag) : residentIdx S tag = none :=
  List.findIdx?_eq_none_iff.2 fun x hx => beq_eq_false_iff_ne.2 (h x hx)

theorem absentIdx_eq_none_of_forall (h : ∀ x ∈ S, x.tag ≠ none) : absentIdx S = none :=
  List.findIdx?_eq_none_iff.2 fun x hx => beq_eq_false_iff_ne.2 (h x hx)

/-- Case "resident" (50_cache.md R106). -/
theorem accessSet_of_resident {i : Nat} (h : residentIdx S tag = some i) :
    accessSet S tag = (.hit, hitSlot S i) := by
  simp only [accessSet, h]

/-- Case "evict" (50_cache.md R108). -/
theorem accessSet_of_full (hr : residentIdx S tag = none) (ha : absentIdx S = none) :
    accessSet S tag = (.miss, evictSlot S (victimIdx S) tag) := by
  simp only [accessSet, hr, ha]

/-- In a well-formed set one slot at most holds a tag (10_state.md R21 item 1). -/
theorem SetOk.index_unique {n i j : Nat} {x y : Slot} (hS : SetOk n S) (hi : S[i]? = some x)
    (hj : S[j]? = some y) (hx : x.tag = some tag) (hy : y.tag = some tag) : i = j := by
  obtain ⟨-, hnodup, -⟩ := hS
  have hpair := List.pairwise_iff_getElem.1 (List.pairwise_filterMap.1 hnodup)
  obtain ⟨hilt, rfl⟩ := List.getElem?_eq_some_iff.1 hi
  obtain ⟨hjlt, rfl⟩ := List.getElem?_eq_some_iff.1 hj
  rcases Nat.lt_trichotomy i j with hlt | heq | hgt
  · exact absurd rfl (hpair i j hilt hjlt hlt tag hx tag hy)
  · exact heq
  · exact absurd rfl (hpair j i hjlt hilt hgt tag hy tag hx)

/-- The scan of a well-formed set finds the slot that holds the tag (50_cache.md R104). -/
theorem SetOk.residentIdx_eq {n i : Nat} {sl : Slot} (hS : SetOk n S) (hi : S[i]? = some sl)
    (htag : sl.tag = some tag) : residentIdx S tag = some i := by
  cases hr : residentIdx S tag with
  | none => exact absurd htag (residentIdx_none S tag hr sl (List.mem_of_getElem? hi))
  | some k =>
    obtain ⟨hk, hktag, -⟩ := residentIdx_some S tag k hr
    rw [hS.index_unique hi (List.getElem?_eq_getElem hk) htag hktag]

/-- Settles O41: the scan finds slot `i`, so the access is the hit on slot `i`. -/
theorem residentAccessPromotes : Obligations.ResidentAccessPromotes := by
  intro n S tag i sl hS hi htag
  rw [accessSet_of_resident (hS.residentIdx_eq hi htag)]
  refine ⟨rfl, (length_hitSlot S i).trans hS.1, ?promoted, ?bumped⟩
  case promoted => simp [getElem?_hitSlot, hi, htag]
  case bumped =>
    intro j x hj hx
    simp [getElem?_hitSlot, hx, hj, Slot.bump]

/-! The victim (50_cache.md R109). -/

theorem recency_le_maxRecency {sl : Slot} (h : sl ∈ S) : sl.recency ≤ maxRecency S := by
  induction S with
  | nil => cases h
  | cons x S ih =>
    rcases List.mem_cons.1 h with rfl | hmem
    · exact le_max_left _ _
    · exact (ih hmem).trans (le_max_right _ _)

theorem maxRecency_le {m : Nat} (h : ∀ x ∈ S, x.recency ≤ m) : maxRecency S ≤ m := by
  induction S with
  | nil => exact Nat.zero_le m
  | cons x S ih =>
    obtain ⟨hx, hS⟩ := List.forall_mem_cons.1 h
    exact max_le hx (ih hS)

/-- The lowest index of largest recency is the victim. -/
theorem victimIdx_eq {v : Nat} {sl : Slot} (hv : S[v]? = some sl) (hmax : ∀ x ∈ S, x.recency ≤ sl.recency)
    (hlow : ∀ j x, j < v → S[j]? = some x → x.recency < sl.recency) : victimIdx S = v := by
  have hrec : maxRecency S = sl.recency :=
    le_antisymm (maxRecency_le hmax) (recency_le_maxRecency (List.mem_of_getElem? hv))
  obtain ⟨hvlt, rfl⟩ := List.getElem?_eq_some_iff.1 hv
  refine (List.findIdx_eq hvlt).2 ⟨beq_iff_eq.2 hrec.symm, fun j hj => ?_⟩
  have hjlow := hlow j _ hj (List.getElem?_eq_getElem (hj.trans hvlt))
  exact beq_eq_false_iff_ne.2 (hrec ▸ hjlow.ne)

/-- Settles O43: no slot matches and none is absent, so the access evicts, and the victim is `v`. -/
theorem evictionTakesStalestSlot : Obligations.EvictionTakesStalestSlot := by
  intro S tag v sl hmiss hfull hv hmax hlow
  rw [accessSet_of_full (residentIdx_eq_none_of_forall hmiss) (absentIdx_eq_none_of_forall hfull),
    victimIdx_eq hv hmax hlow]
  refine ⟨rfl, length_evictSlot S v tag, ?replaced, ?bumped⟩
  case replaced => simp [getElem?_evictSlot, hv]
  case bumped =>
    intro j x hj hx
    simp [getElem?_evictSlot, hx, hj, Slot.bump]

end Sys2Proof.Machine
end

section
/-! The levels that a load or store accesses, and the events it adds (50_cache.md R115 to R117). -/

namespace Sys2Proof.Machine

/-- Level and kind of each event that `t` has beyond those of `s`. -/
abbrev newEvents (s t : State) : List (Level × EventKind) :=
  (t.trace.drop s.trace.length).map fun e => (e.level, e.kind)

theorem newEvents_of_trace {s t : State} {es : List Event} (h : t.trace = s.trace ++ es) :
    newEvents s t = es.map fun e => (e.level, e.kind) := by
  rw [newEvents, h, List.drop_left]

theorem exists_new_event_iff (s t : State) (l : Level) :
    (∃ e ∈ t.trace.drop s.trace.length, e.level = l) ↔ l ∈ (newEvents s t).map Prod.fst := by
  rw [newEvents, List.map_map]
  exact List.mem_map.symm

/-- The event of a load is `HIT` iff the level hit (50_cache.md R113). -/
theorem eventKind_load_eq_hit_iff (r : Residency) : eventKind false r = .hit ↔ r = .hit := by
  cases r with
  | hit => exact iff_of_true rfl rfl
  | miss => exact iff_of_false nofun nofun

section

variable {s t : State} {addr : Nat} {isStore : Bool}

theorem CachesAccessed.l1_eq (h : CachesAccessed s t addr isStore) :
    t.l1 = (levelAccess s.l1 addr).cache := h.1

/-- With one level there is one event. -/
theorem CachesAccessed.of_one_level (h : CachesAccessed s t addr isStore) (h2 : s.l2 = none) :
    t.l2 = none ∧ newEvents s t = [(.l1, eventKind isStore (levelAccess s.l1 addr).residency)] := by
  obtain ⟨-, hrest⟩ := h
  rw [h2] at hrest
  obtain ⟨hl2, htrace⟩ := hrest
  exact ⟨hl2, newEvents_of_trace htrace⟩

/-- An access whose L1 event is `HIT` ends at L1 (50_cache.md R116). -/
theorem CachesAccessed.of_hit (h : CachesAccessed s t addr isStore) {c2 : Cache} (h2 : s.l2 = some c2)
    (hk : eventKind isStore (levelAccess s.l1 addr).residency = .hit) :
    t.l2 = some c2 ∧ newEvents s t = [(.l1, .hit)] := by
  obtain ⟨-, hrest⟩ := h
  rw [h2] at hrest
  obtain ⟨hl2, htrace⟩ := (if_pos hk).mp hrest
  refine ⟨hl2, (newEvents_of_trace htrace).trans ?_⟩
  rw [List.map_singleton, hk]

/-- Any other access goes on to L2, where it exists (50_cache.md R116, R117). -/
theorem CachesAccessed.of_not_hit (h : CachesAccessed s t addr isStore) {c2 : Cache} (h2 : s.l2 = some c2)
    (hk : eventKind isStore (levelAccess s.l1 addr).residency ≠ .hit) :
    t.l2 = some (levelAccess c2 addr).cache ∧
      newEvents s t = [(.l1, eventKind isStore (levelAccess s.l1 addr).residency),
        (.l2, eventKind isStore (levelAccess c2 addr).residency)] := by
  obtain ⟨-, hrest⟩ := h
  rw [h2] at hrest
  obtain ⟨hl2, htrace⟩ := (if_neg hk).mp hrest
  exact ⟨hl2, newEvents_of_trace htrace⟩

/-- A load accesses L2 iff it misses in L1 (50_cache.md R116). -/
theorem CachesAccessed.load_two_levels (h : CachesAccessed s t addr false) {c2 : Cache}
    (h2 : s.l2 = some c2) :
    t.l2 = some (if (levelAccess s.l1 addr).residency = .hit then c2 else (levelAccess c2 addr).cache) ∧
      ((∃ e ∈ t.trace.drop s.trace.length, e.level = .l2) ↔ (levelAccess s.l1 addr).residency ≠ .hit) := by
  rw [exists_new_event_iff]
  by_cases hr : (levelAccess s.l1 addr).residency = .hit
  · obtain ⟨hl2, hevents⟩ := h.of_hit h2 ((eventKind_load_eq_hit_iff _).2 hr)
    rw [hevents, if_pos hr]
    exact ⟨hl2, iff_of_false (by decide) (not_not_intro hr)⟩
  · obtain ⟨hl2, hevents⟩ := h.of_not_hit h2 (mt (eventKind_load_eq_hit_iff _).1 hr)
    rw [hevents, if_neg hr]
    exact ⟨hl2, iff_of_true (by simp) hr⟩

/-- A store accesses both levels, and both events are `SW` (50_cache.md R117). -/
theorem CachesAccessed.store_two_levels (h : CachesAccessed s t addr true) {c2 : Cache}
    (h2 : s.l2 = some c2) :
    t.l2 = some (levelAccess c2 addr).cache ∧ newEvents s t = [(.l1, .sw), (.l2, .sw)] :=
  h.of_not_hit h2 (by simp)

end

/-! A load or store inside memory completes, and the access is made from the caches and trace of `s`, which the
register or memory write before it leaves alone. -/

section

variable {rB rA : Reg} {imm : Int} {s : State}

theorem exec_lw_accesses_caches (h0 : 0 ≤ effectiveAddress s rA imm)
    (h1 : effectiveAddress s rA imm < s.memSize) :
    ∃ t, exec (.lw rB rA imm) s = .next t ∧
      CachesAccessed s t (effectiveAddress s rA imm).toNat false :=
  ⟨_, exec_lw_of_inRange h0 h1, completeAccess_caches _ _ _⟩

theorem exec_sw_accesses_caches (h0 : 0 ≤ effectiveAddress s rA imm)
    (h1 : effectiveAddress s rA imm < s.memSize) :
    ∃ t, exec (.sw rB rA imm) s = .next t ∧
      CachesAccessed s t (effectiveAddress s rA imm).toNat true :=
  ⟨_, exec_sw_of_inRange h0 h1, completeAccess_caches _ _ _⟩

end

/-- Settles O39: the load and the store each make one access, whose levels and events are those of R116 and
R117. -/
theorem secondLevelAccess : Obligations.SecondLevelAccess := by
  intro s rB rA imm h0 h1
  obtain ⟨t, hload, hloadCaches⟩ := exec_lw_accesses_caches (rB := rB) h0 h1
  obtain ⟨u, hstore, hstoreCaches⟩ := exec_sw_accesses_caches (rB := rB) h0 h1
  refine ⟨fun c2 h2 => ⟨⟨t, hload, hloadCaches.l1_eq, hloadCaches.load_two_levels h2⟩,
    ⟨u, hstore, hstoreCaches.l1_eq, hstoreCaches.store_two_levels h2⟩⟩, fun h2 => ?_⟩
  exact ⟨u, hstore, hstoreCaches.l1_eq, hstoreCaches.of_one_level h2⟩

end Sys2Proof.Machine
end

section
/-! Decode after encode (30_encoding.md R52 to R58): each operand is read back from the word it stands in. -/

namespace Sys2Proof

/-! The remaining fields: the word of `jr`, and the low bits of a reserved word. -/

section Fields

variable (rA : Reg) (fn : BitVec 4)

theorem jrWord_family (ignored : BitVec 6) :
    BitVec.extractLsb' 13 3 (0b000#3 ++ regBits rA ++ ignored ++ fn : Word) = 0b000#3 := by
  rw [BitVec.extractLsb'_append_eq_of_le (by decide), BitVec.extractLsb'_append_eq_of_le (by decide)]
  exact BitVec.extractLsb'_append_eq_left

theorem regField_jrWord (ignored : BitVec 6) :
    regField (0b000#3 ++ regBits rA ++ ignored ++ fn : Word) 10 = rA := by
  unfold regField
  rw [BitVec.extractLsb'_append_eq_of_le (by decide)]
  exact congrArg BitVec.toFin (extractLsb'_middle 0b000#3 (regBits rA) ignored)

@[simp] theorem formatReserved_ignored (ignored : BitVec 9) :
    (formatReserved ignored fn).extractLsb' 4 9 = ignored :=
  extractLsb'_middle 0b000#3 ignored fn

/-- A field that lies inside the suffix. -/
theorem formatReserved_low {start len : Nat} (ignored : BitVec 9) (h : start + len ≤ 4) :
    (formatReserved ignored fn).extractLsb' start len = fn.extractLsb' start len :=
  BitVec.extractLsb'_append_eq_of_add_le h

end Fields

theorem immInRange_iff (imm : Int) : immInRange imm = true ↔ -64 ≤ imm ∧ imm ≤ 63 := by
  simp [immInRange]

theorem targetInRange_iff (target : Nat) : targetInRange target = true ↔ target ≤ 8191 := by
  simp [targetInRange]

/-- The encoder's field stands for the immediate, where it is in range (30_encoding.md R56). -/
theorem sext7_ofInt {imm : Int} (h : immInRange imm = true) : sext7 (BitVec.ofInt 7 imm) = imm := by
  obtain ⟨hlow, hhigh⟩ := (immInRange_iff imm).1 h
  rw [sext7, BitVec.toInt_ofInt]
  exact Int.bmod_eq_of_le hlow (by omega)

theorem toNat_ofNat_target {target : Nat} (h : targetInRange target = true) :
    (BitVec.ofNat 13 target).toNat = target := by
  have hle : target ≤ 8191 := (targetInRange_iff target).1 h
  rw [BitVec.toNat_ofNat]
  exact Nat.mod_eq_of_lt (by omega)

/-! The rows that no earlier statement needed. -/

theorem decodeWord_slti (rB rA : Reg) (imm7 : BitVec 7) :
    decodeWord (0b111#3 ++ regBits rA ++ regBits rB ++ imm7) = .slti rB rA (sext7 imm7) := by
  rw [← formatI_sext7]
  simp [decodeWord]

theorem decodeWord_jal (imm13 : BitVec 13) : decodeWord (0b011#3 ++ imm13) = .jal imm13.toNat := by
  simp [decodeWord]

theorem decodeWord_encode_sub (rD rA rB : Reg) : decodeWord (encode (.sub rD rA rB)) = .sub rD rA rB := by
  simp [encode, decodeWord_formatR, decodeThreeRegister]

theorem decodeWord_jr (rA : Reg) (ignored : BitVec 6) :
    decodeWord (0b000#3 ++ regBits rA ++ ignored ++ 0b1000#4) = .jr rA ignored := by
  rw [decodeWord_of_family_zero (jrWord_family rA _ ignored)]
  have hfn : BitVec.extractLsb' 0 4 (0b000#3 ++ regBits rA ++ ignored ++ 0b1000#4 : Word) = 0b1000#4 :=
    BitVec.extractLsb'_append_eq_right
  have hign : BitVec.extractLsb' 4 6 (0b000#3 ++ regBits rA ++ ignored ++ 0b1000#4 : Word) = ignored :=
    extractLsb'_middle _ ignored _
  simp [decodeThreeRegister, hfn, hign, regField_jrWord]

theorem decodeWord_formatReserved (ignored : BitVec 9) (fn : BitVec 4) :
    decodeWord (formatReserved ignored fn) = decodeThreeRegister (formatReserved ignored fn) :=
  decodeWord_of_family_zero (formatReserved_family ignored fn)

theorem twoBits_cases (xx : BitVec 2) : xx = 0 ∨ xx = 1 ∨ xx = 2 ∨ xx = 3 := by
  revert xx; decide

/-- One case per reserved suffix (40_three_register.md R76): the bits that a row leaves open are read back. -/
theorem decodeWord_encode_of_reserved {i : Instr} (h : i.opcode ∈ reservedRows) :
    decodeWord (encode i) = i := by
  cases i with
  | reservedNop0101 _ | reservedNop1001 _ => simp [encode, decodeWord_formatReserved, decodeThreeRegister]
  | reservedNop011x _ x | reservedNop101x _ x =>
    obtain rfl | rfl := x.eq_zero_or_eq_one <;>
      simp [encode, decodeWord_formatReserved, decodeThreeRegister, formatReserved_low]
  | reservedNop11xx _ xx =>
    obtain rfl | rfl | rfl | rfl := twoBits_cases xx <;>
      simp [encode, decodeWord_formatReserved, decodeThreeRegister, formatReserved_low]
  | _ => simp [Instr.opcode] at h

/-- Settles O1, row by row: the word selects the row, and well-formedness is that the immediate or the target
fits its field. -/
theorem decodeOfEncode : Obligations.DecodeOfEncode := by
  intro i hi
  cases i with
  | add rD rA rB => exact decodeWord_encode_add rD rA rB
  | sub rD rA rB => exact decodeWord_encode_sub rD rA rB
  | or rD rA rB => exact decodeWord_encode_or rD rA rB
  | and rD rA rB => exact decodeWord_encode_and rD rA rB
  | slt rD rA rB => exact decodeWord_encode_slt rD rA rB
  | jr rA ignored => exact decodeWord_jr rA ignored
  | addi rB rA imm => exact (decodeWord_addi rB rA _).trans (congrArg _ (sext7_ofInt hi))
  | slti rB rA imm => exact (decodeWord_slti rB rA _).trans (congrArg _ (sext7_ofInt hi))
  | lw rB rA imm => exact (decodeWord_lw rB rA _).trans (congrArg _ (sext7_ofInt hi))
  | sw rB rA imm => exact (decodeWord_sw rB rA _).trans (congrArg _ (sext7_ofInt hi))
  | jeq rA rB imm => exact (decodeWord_jeq rA rB _).trans (congrArg _ (sext7_ofInt hi))
  | j target => exact (decodeWord_j _).trans (congrArg _ (toNat_ofNat_target hi))
  | jal target => exact (decodeWord_jal _).trans (congrArg _ (toNat_ofNat_target hi))
  | _ => exact decodeWord_encode_of_reserved (by simp [Instr.opcode])

end Sys2Proof
end

section
/-! Encode after decode (30_encoding.md R52 to R58): a word is its fields side by side, so the encoder puts it
together again from what the decoder read. -/

namespace Sys2Proof

section Fields

variable {w : Word} {k : Nat}

theorem eq_ofNat_of_toNat {n : Nat} {b : BitVec n} (h : b.toNat = k) : b = BitVec.ofNat n k := by
  rw [← h, BitVec.ofNat_toNat, BitVec.setWidth_eq]

/-- Two fields that stand side by side are one field. -/
theorem join_fields {v : Nat} (b : BitVec v) {hi lo m n : Nat} (h : hi = lo + n) :
    b.extractLsb' hi m ++ b.extractLsb' lo n = b.extractLsb' lo (m + n) :=
  BitVec.extractLsb'_append_extractLsb'_eq_extractLsb' h

@[simp] theorem regBits_regField (w : Word) (lo : Nat) : regBits (regField w lo) = w.extractLsb' lo 3 := rfl

theorem formatI_fields (hop : (w.extractLsb' 13 3).toNat = k) :
    formatI (BitVec.ofNat 3 k) (regField w 10) (regField w 7) (immField w) = w := by
  rw [immField, formatI_sext7, ← eq_ofNat_of_toNat hop, regBits_regField, regBits_regField,
    join_fields, join_fields, join_fields, BitVec.extractLsb'_eq_self]
  all_goals rfl

theorem formatJ_fields {link : BitVec 1} (hop : w.extractLsb' 13 3 = 0b01#2 ++ link) :
    formatJ link (targetField w) = w := by
  rw [formatJ, ← hop, targetField, BitVec.ofNat_toNat, BitVec.setWidth_eq,
    join_fields, BitVec.extractLsb'_eq_self]
  all_goals rfl

theorem formatReserved_fields {fn : BitVec 4} (hfam : (w.extractLsb' 13 3).toNat = 0)
    (hfn : w.extractLsb' 0 4 = fn) : formatReserved (w.extractLsb' 4 9) fn = w := by
  rw [formatReserved, ← eq_ofNat_of_toNat hfam, ← hfn, join_fields, join_fields, BitVec.extractLsb'_eq_self]
  all_goals rfl

theorem formatR_fields (hfam : (w.extractLsb' 13 3).toNat = 0) (hfn : (w.extractLsb' 0 4).toNat = k) :
    formatR (regField w 10) (regField w 7) (regField w 4) (BitVec.ofNat 4 k) = w := by
  rw [formatR, ← eq_ofNat_of_toNat hfam, ← eq_ofNat_of_toNat hfn, regBits_regField, regBits_regField,
    regBits_regField,
    join_fields, join_fields, join_fields, join_fields, BitVec.extractLsb'_eq_self]
  all_goals rfl

theorem jrWord_fields (hfam : (w.extractLsb' 13 3).toNat = 0) (hfn : (w.extractLsb' 0 4).toNat = k) :
    0b000#3 ++ regBits (regField w 10) ++ w.extractLsb' 4 6 ++ BitVec.ofNat 4 k = w := by
  rw [← eq_ofNat_of_toNat hfam, ← eq_ofNat_of_toNat hfn, regBits_regField,
    join_fields, join_fields, join_fields, BitVec.extractLsb'_eq_self]
  all_goals rfl

/-- A field whose upper bits are known. -/
theorem eq_append_of_div {m n : Nat} (b : BitVec (m + n)) {high : BitVec m}
    (h : b.toNat / 2 ^ n = high.toNat) : b = high ++ b.extractLsb' 0 n := by
  have hhigh : b.extractLsb' n m = high := by
    refine BitVec.eq_of_toNat_eq ?_
    rw [BitVec.extractLsb'_toNat, Nat.shiftRight_eq_div_pow, h]
    exact Nat.mod_eq_of_lt high.isLt
  rw [← hhigh, join_fields b (Nat.zero_add n).symm, BitVec.extractLsb'_eq_self]

theorem suffix_eq_append_one {high : BitVec 3} (h : (w.extractLsb' 0 4).toNat / 2 = high.toNat) :
    w.extractLsb' 0 4 = high ++ w.extractLsb' 0 1 := by
  have := eq_append_of_div (m := 3) (n := 1) (w.extractLsb' 0 4) h
  rwa [BitVec.extractLsb'_extractLsb'_of_le (by decide)] at this

theorem suffix_eq_append_two {high : BitVec 2} (h : (w.extractLsb' 0 4).toNat / 4 = high.toNat) :
    w.extractLsb' 0 4 = high ++ w.extractLsb' 0 2 := by
  have := eq_append_of_div (m := 2) (n := 2) (w.extractLsb' 0 4) h
  rwa [BitVec.extractLsb'_extractLsb'_of_le (by decide)] at this

end Fields

/-- One case per suffix of the three-register family (30_encoding.md R58; 40_three_register.md R76). -/
theorem encode_decodeThreeRegister {w : Word} (hfam : (w.extractLsb' 13 3).toNat = 0) :
    encode (decodeThreeRegister w) = w := by
  unfold decodeThreeRegister
  split
  case h_1 hfn | h_2 hfn | h_3 hfn | h_4 hfn | h_5 hfn => exact formatR_fields hfam hfn
  case h_6 hfn => exact jrWord_fields hfam hfn
  case h_7 hfn | h_10 hfn => exact formatReserved_fields hfam (eq_ofNat_of_toNat hfn)
  case h_8 hfn | h_9 hfn | h_11 hfn | h_12 hfn =>
    exact formatReserved_fields hfam (suffix_eq_append_one (by rw [hfn]; rfl))
  case h_13 =>
    have hlt := (w.extractLsb' 0 4).isLt
    refine formatReserved_fields hfam (suffix_eq_append_two (high := 0b11#2) ?_)
    show _ = 3
    simp only [imp_false] at *
    omega

theorem decodeThreeRegister_wellFormed (w : Word) : (decodeThreeRegister w).wellFormed = true := by
  unfold decodeThreeRegister
  split <;> rfl

theorem immInRange_sext7 (imm7 : BitVec 7) : immInRange (sext7 imm7) = true := by
  have hlow : -64 ≤ sext7 imm7 := imm7.le_toInt
  have hhigh : sext7 imm7 < 64 := imm7.toInt_lt
  exact (immInRange_iff _).2 ⟨hlow, by omega⟩

theorem targetInRange_targetField (w : Word) : targetInRange (targetField w) = true := by
  have hlt : targetField w < 8192 := (w.extractLsb' 0 13).isLt
  exact (targetInRange_iff _).2 (by omega)

theorem decodeWord_wellFormed (w : Word) : (decodeWord w).wellFormed = true := by
  unfold decodeWord
  split
  case h_1 => exact decodeThreeRegister_wellFormed w
  case h_3 | h_4 => exact targetInRange_targetField w
  all_goals exact immInRange_sext7 _

/-- One case per family (30_encoding.md R51). -/
theorem encode_decodeWord (w : Word) : encode (decodeWord w) = w := by
  unfold decodeWord
  split
  case h_1 hop => exact encode_decodeThreeRegister hop
  case h_3 hop | h_4 hop => exact formatJ_fields (eq_ofNat_of_toNat hop)
  case h_2 hop | h_5 hop | h_6 hop | h_7 hop => exact formatI_fields hop
  case h_8 =>
    have hlt := (w.extractLsb' 13 3).isLt
    refine formatI_fields (k := 7) ?_
    simp only [imp_false] at *
    omega

/-- Settles O2: the encoding gives back the word, and no decoded immediate or target exceeds its field. -/
theorem encodeOfDecode : Obligations.EncodeOfDecode := fun w =>
  ⟨decodeWord_wellFormed w, encode_decodeWord w⟩

end Sys2Proof
end

section
/-! The opcode table (30_encoding.md R57): the rows exclude each other, and the decoder's row is the one that
the word matches. -/

namespace Sys2Proof

/-- The 18 rows of the opcode table. -/
def allOpcodes : List Opcode :=
  [.add, .sub, .or, .and, .slt, .jr, .reservedNop0101, .reservedNop011x, .reservedNop1001, .reservedNop101x,
    .reservedNop11xx, .addi, .slti, .lw, .sw, .jeq, .j, .jal]

theorem mem_allOpcodes (o : Opcode) : o ∈ allOpcodes := by
  cases o <;> decide

/-- Two rows whose fixed bits agree where both fix them are one row. -/
theorem Opcode.eq_of_fixed_bits_agree (o p : Opcode)
    (h : o.pattern &&& p.mask = p.pattern &&& o.mask) : o = p := by
  have key : ∀ o ∈ allOpcodes, ∀ p ∈ allOpcodes, o.pattern &&& p.mask = p.pattern &&& o.mask → o = p := by
    decide
  exact key o (mem_allOpcodes o) p (mem_allOpcodes p) h

open Laws.EncodingMatchesRow in
/-- The family of Laws/PerInstr.lean as one statement. -/
theorem encode_matches_row (i : Instr) : encode i &&& i.opcode.mask = i.opcode.pattern := by
  cases i with
  | add rD rA rB => exact add rD rA rB
  | sub rD rA rB => exact sub rD rA rB
  | or rD rA rB => exact or rD rA rB
  | and rD rA rB => exact and rD rA rB
  | slt rD rA rB => exact slt rD rA rB
  | jr rA ignored => exact jr rA ignored
  | reservedNop0101 ignored => exact reservedNop0101 ignored
  | reservedNop011x ignored x => exact reservedNop011x ignored x
  | reservedNop1001 ignored => exact reservedNop1001 ignored
  | reservedNop101x ignored x => exact reservedNop101x ignored x
  | reservedNop11xx ignored xx => exact reservedNop11xx ignored xx
  | addi rB rA imm => exact addi rB rA imm
  | slti rB rA imm => exact slti rB rA imm
  | lw rB rA imm => exact lw rB rA imm
  | sw rB rA imm => exact sw rB rA imm
  | jeq rA rB imm => exact jeq rA rB imm
  | j target => exact j target
  | jal target => exact jal target

theorem word_matches_decoded_row (w : Word) :
    w &&& (decodeWord w).opcode.mask = (decodeWord w).opcode.pattern := by
  simpa only [encode_decodeWord] using encode_matches_row (decodeWord w)

/-- Settles O3: the word matches the row it decodes to, and no other row has the same fixed bits. -/
theorem decodedRowIsTheOnlyMatch : Obligations.DecodedRowIsTheOnlyMatch := by
  intro w o
  have hrow := word_matches_decoded_row w
  constructor
  · rintro rfl
    exact hrow
  · intro ho
    refine Opcode.eq_of_fixed_bits_agree _ o ?_
    rw [← hrow, ← ho, BitVec.and_assoc, BitVec.and_assoc, BitVec.and_comm o.mask]

/-- Settles O4, by evaluation of the decoder on the fourteen words. -/
theorem exampleWordsDecode : Obligations.ExampleWordsDecode := by
  unfold Obligations.ExampleWordsDecode
  decide

end Sys2Proof
end

section
/-! The remaining instructions' effects: `sub`, `slti`, `jr`, `jal` (40_three_register.md R71, R75;
41_two_register_immediate.md R81; 44_jump.md R94) and the range of the effective address (42_load_store.md
R85). -/

namespace Sys2Proof.Machine

theorem exec_sub (rD rA rB : Reg) (s : State) : exec (.sub rD rA rB) s =
    .next (writeResult s rD (mod16 ((s.reg rA).toNat - (s.reg rB).toNat))) := rfl

theorem exec_slti (rB rA : Reg) (imm : Int) (s : State) : exec (.slti rB rA imm) s =
    .next (writeResult s rB (setLess (s.reg rA) (immOperand imm))) := rfl

theorem exec_jr (rA : Reg) (ignored : BitVec 6) (s : State) :
    exec (.jr rA ignored) s = .next (s.setPc (s.reg rA).toNat) := rfl

theorem exec_jal (target : Nat) (s : State) : exec (.jal target) s =
    .next (jumpOrHalt (s.setReg linkReg (linkValue s)) target) := rfl

/-- Settles O7: `sub` answers `writeResult` of the difference mod 2^16. -/
theorem subEffect : Obligations.SubEffect := fun rD rA rB s =>
  ⟨decodeWord_encode_sub rD rA rB,
    completes_of_writeResult
      (fun v => (v.toNat : Int) = ((s.reg rA).toNat - (s.reg rB).toNat : Int) % 65536)
      (exec_sub rD rA rB s) (mod16_toNat _)⟩

/-- The comparison with an immediate, as one of integers: the immediate is first reduced mod 2^16. -/
theorem setLess_immOperand_toNat (a : Word) (imm : Int) :
    (setLess a (immOperand imm)).toNat = if (a.toNat : Int) < imm % 65536 then 1 else 0 := by
  rw [setLess_toNat, ← mod16_toNat imm]
  exact if_congr Nat.cast_lt.symm rfl rfl

/-- Settles O14: `slti` answers `writeResult` of the unsigned comparison. -/
theorem sltiEffect : Obligations.SltiEffect := fun rB rA imm7 s =>
  ⟨decodeWord_slti rB rA imm7,
    completes_of_writeResult
      (fun v => v.toNat = if ((s.reg rA).toNat : Int) < sext7 imm7 % 65536 then 1 else 0)
      (exec_slti rB rA _ s) (setLess_immOperand_toNat _ _)⟩

/-- Settles O11: `jr` answers the `pc` write of a 16-bit value, which the reduction mod 2^16 keeps. -/
theorem jrEffect : Obligations.JrEffect := fun rA ignored s =>
  ⟨decodeWord_jr rA ignored, _, exec_jr rA ignored s, mod16_of_word (s.reg rA), setPc_frame s _⟩

theorem effectiveAddress_bounds (s : State) (rA : Reg) {imm : Int} (h : immInRange imm = true) :
    -64 ≤ effectiveAddress s rA imm ∧ effectiveAddress s rA imm ≤ 65598 := by
  obtain ⟨hlow, hhigh⟩ := (immInRange_iff imm).1 h
  have hreg : (s.reg rA).toNat < 65536 := (s.reg rA).isLt
  unfold effectiveAddress
  omega

/-- Settles O17: the ends are reached from the registers' least value by displacement -64, and from their
greatest by displacement 63. -/
theorem effectiveAddressIsNotMasked : Obligations.EffectiveAddressIsNotMasked :=
  ⟨fun s rA imm7 => ⟨rfl, effectiveAddress_bounds s rA (immInRange_sext7 imm7)⟩,
    ⟨State.reset, 0, 64, by decide⟩, ⟨State.reset.setReg 0 0xFFFF, 0, 63, by decide⟩⟩

theorem linkValue_toNat (s : State) : (linkValue s).toNat = (s.pc.toNat + 1) % 65536 :=
  advance_pc_toNat s

theorem sameRegsBut_setReg (s : State) (r : Reg) (v : Word) : SameRegsBut [r] s (s.setReg r v) :=
  fun j hj => reg_setReg_other s r j v (List.ne_of_not_mem_cons hj)

/-- Settles O20: the link is written first; the jump then halts with `pc` at the target, or goes there. -/
theorem jumpAndLinkEffect : Obligations.JumpAndLinkEffect := by
  intro imm13 s
  have hlink : ((s.setReg linkReg (linkValue s)).reg 7).toNat = (s.pc.toNat + 1) % 65536 :=
    (congrArg BitVec.toNat (reg_setReg_same s linkReg _)).trans (linkValue_toNat s)
  have hregs := sameRegsBut_setReg s linkReg (linkValue s)
  refine ⟨decodeWord_jal imm13, _, exec_jal imm13.toNat s, ?_⟩
  rcases jumpOrHalt_cases (s.setReg linkReg (linkValue s)) imm13.toNat with ⟨hself, h⟩ | ⟨hother, h⟩
  · rw [h, if_pos (by exact hself)]
    exact ⟨hlink, hregs, sameMemory_of_eq s _ rfl rfl, ⟨rfl, rfl, rfl⟩, hself.symm, rfl⟩
  · rw [h, if_neg (by exact hother)]
    exact ⟨hlink, hregs, sameMemory_of_eq s _ rfl rfl, ⟨rfl, rfl, rfl⟩, setPc_target_toNat _ imm13, rfl⟩

/-- Settles O35: the `jal` leaves the address after it in register 7, and `jr` goes to what register 7 holds.
-/
theorem callThenReturn : Obligations.CallThenReturn := by
  intro s imm13 ignored hother
  obtain ⟨-, t, hjal, hlink, -, -, -, hpc, hstatus⟩ := jumpAndLinkEffect imm13 s
  obtain ⟨-, u, hjr, hreturn, -, -, -, hkept⟩ := jrEffect 7 ignored t
  refine ⟨t, u, hjal, hpc, hjr, hreturn ▸ hlink, ?_⟩
  rw [hkept, hstatus, if_neg hother]

end Sys2Proof.Machine
end

section
/-! What one instruction can do, said once: the shapes of the state it answers, and which instructions have
which (00_scope.md R8; 42_load_store.md R86, R87; 44_jump.md R93 to R95). -/

namespace Sys2Proof.Machine

/-- The states that an instruction can answer from `s`. Only a load or store in memory accesses the caches,
only a store writes memory, and only a self jump or a range fault changes the status. -/
inductive Effect (s : State) : Instr → State → Prop
  | goto {i : Instr} (target : Int) (hquiet : eventLevels i s = []) : Effect s i (s.setPc target)
  | write {i : Instr} {r : Reg} (v : Word) (target : Int) (hdest : destReg i = some r)
      (hquiet : eventLevels i s = []) : Effect s i ((s.setReg r v).setPc target)
  | halt : Effect s (.j s.pc.toNat) s.halt
  | linkHalt : Effect s (.jal s.pc.toNat) (s.setReg linkReg (linkValue s)).halt
  | load {rB rA : Reg} {imm : Int} (h0 : 0 ≤ effectiveAddress s rA imm)
      (h1 : effectiveAddress s rA imm < s.memSize) :
      Effect s (.lw rB rA imm)
        (completeAccess (s.setReg rB (s.mem.read (effectiveAddress s rA imm).toNat))
          (effectiveAddress s rA imm).toNat false)
  | store {rB rA : Reg} {imm : Int} (h0 : 0 ≤ effectiveAddress s rA imm)
      (h1 : effectiveAddress s rA imm < s.memSize) :
      Effect s (.sw rB rA imm)
        (completeAccess (storeWord s (effectiveAddress s rA imm) (s.reg rB))
          (effectiveAddress s rA imm).toNat true)
  | addressFault {i : Instr} {rB rA : Reg} {imm : Int} (hi : i = .lw rB rA imm ∨ i = .sw rB rA imm)
      (hout : effectiveAddress s rA imm < 0 ∨ s.memSize ≤ effectiveAddress s rA imm) :
      Effect s i (s.raise (.addressRange (effectiveAddress s rA imm)))

/-- An address is inside memory or outside it (20_memory.md R31). -/
theorem inside_or_outside (s : State) (a : Int) :
    (0 ≤ a ∧ a < s.memSize) ∨ (a < 0 ∨ s.memSize ≤ a) := by
  omega

/-- Every instruction has one of the effects, one case per instruction. -/
theorem exec_effect (i : Instr) (s : State) : ∃ t, exec i s = .next t ∧ Effect s i t := by
  cases i with
  | add _ _ _ | sub _ _ _ | or _ _ _ | and _ _ _ | slt _ _ _ | addi _ _ _ | slti _ _ _ =>
    exact ⟨_, rfl, .write _ _ rfl rfl⟩
  | jr _ _ | reservedNop0101 _ | reservedNop011x _ _ | reservedNop1001 _ | reservedNop101x _ _
  | reservedNop11xx _ _ => exact ⟨_, rfl, .goto _ rfl⟩
  | jeq rA rB imm => exact ⟨_, exec_jeq rA rB imm s, .goto _ rfl⟩
  | j target =>
    refine ⟨_, exec_j target s, ?_⟩
    rcases jumpOrHalt_cases s target with ⟨rfl, h⟩ | ⟨-, h⟩ <;> rw [h]
    · exact .halt
    · exact .goto _ rfl
  | jal target =>
    refine ⟨_, exec_jal target s, ?_⟩
    rcases jumpOrHalt_cases (s.setReg linkReg (linkValue s)) target with ⟨rfl, h⟩ | ⟨-, h⟩ <;> rw [h]
    · exact .linkHalt
    · exact .write _ _ rfl rfl
  | lw rB rA imm =>
    rcases inside_or_outside s (effectiveAddress s rA imm) with ⟨h0, h1⟩ | hout
    · exact ⟨_, exec_lw_of_inRange h0 h1, .load h0 h1⟩
    · exact ⟨_, exec_lw_of_not_inRange hout, .addressFault (.inl rfl) hout⟩
  | sw rB rA imm =>
    rcases inside_or_outside s (effectiveAddress s rA imm) with ⟨h0, h1⟩ | hout
    · exact ⟨_, exec_sw_of_inRange h0 h1, .store h0 h1⟩
    · exact ⟨_, exec_sw_of_not_inRange hout, .addressFault (.inr rfl) hout⟩

/-- The inversion of `exec`. -/
theorem effect_of_exec {i : Instr} {s t : State} (h : exec i s = .next t) : Effect s i t := by
  obtain ⟨u, hu, heffect⟩ := exec_effect i s
  rwa [Host.Outcome.next.inj (h.symm.trans hu)]

/-! More of what `storeWord` and `completeAccess` leave unchanged. -/

@[simp] theorem storeWord_memSize (s : State) (a : Int) (v : Word) :
    (storeWord s a v).memSize = s.memSize := rfl
@[simp] theorem storeWord_status (s : State) (a : Int) (v : Word) : (storeWord s a v).status = s.status := rfl
@[simp] theorem storeWord_reg (s : State) (a : Int) (v : Word) (r : Reg) :
    (storeWord s a v).reg r = s.reg r := rfl
@[simp] theorem storeWord_config (s : State) (a : Int) (v : Word) : (storeWord s a v).config = s.config := rfl

@[simp] theorem completeAccess_config (s : State) (addr : Nat) (isStore : Bool) :
    (completeAccess s addr isStore).config = s.config :=
  cacheAccess_config s s.pc addr isStore

/-! What every instruction keeps. -/

section Frame

variable {i : Instr} {s t : State}

theorem Effect.config_eq (h : Effect s i t) : t.config = s.config := by
  cases h <;> simp

theorem Effect.memSize_eq (h : Effect s i t) : t.memSize = s.memSize :=
  congrArg Config.memSize h.config_eq

/-- Settles O21: each instruction has an effect. -/
theorem everyInstructionCompletes : Obligations.EveryInstructionCompletes := fun i s =>
  let ⟨t, h, _⟩ := exec_effect i s
  ⟨t, h⟩

/-- Settles O28: the effects that write a register write the destination. -/
theorem onlyDestinationRegisterChanges : Obligations.OnlyDestinationRegisterChanges := by
  intro i s t h r hr
  cases effect_of_exec h with
  | goto | halt | addressFault => rfl
  | write v target hdest =>
    rw [setPc_reg, reg_setReg_other]
    rintro rfl
    exact hr hdest
  | linkHalt =>
    rw [halt_reg, reg_setReg_other]
    rintro rfl
    exact hr rfl
  | load =>
    rw [completeAccess_reg, reg_setReg_other]
    rintro rfl
    exact hr rfl
  | store => rw [completeAccess_reg, storeWord_reg]

theorem Effect.memRead_eq (h : Effect s i t) (a : Int)
    (ha : ∀ rB rA imm, i = .sw rB rA imm → a ≠ effectiveAddress s rA imm) : t.memRead a = s.memRead a := by
  cases h with
  | goto | write | halt | linkHalt | addressFault => rfl
  | load => exact completeAccess_memRead _ _ _ a
  | store h0 h1 => rw [completeAccess_memRead, memRead_storeWord_other _ h0 (ha _ _ _ rfl)]

/-- Settles O29: `sw` alone has the effect `store`, which leaves every other address. -/
theorem onlyStoresChangeMemory : Obligations.OnlyStoresChangeMemory := fun _ _ _ h a ha =>
  (effect_of_exec h).memRead_eq a ha

end Frame

end Sys2Proof.Machine
end

section
/-! The step (70_reset_and_hazards.md R157): what it answers for each status, and what follows for a whole
step from the effects of the instructions. -/

namespace Sys2Proof.Machine

section Equations

variable {s : State} (hc : configValid s.config = true)

include hc

theorem step_of_halted (hs : s.status = .halted) : step s = .refused .halted := by
  simp [step, hc, hs]

theorem step_of_faulted {f : Fault} (hs : s.status = .faulted f) : step s = .fault f := by
  simp [step, hc, hs]

theorem step_of_fetch_inside (hs : s.status = .running) (hpc : s.pc.toNat < s.memSize) :
    step s = exec (decodeWord (s.mem.read s.pc.toNat)) s := by
  simp [step, hc, hs, fetch_of_lt s hpc]

theorem step_of_word_at_pc (hs : s.status = .running) (hpc : s.pc.toNat < s.memSize) {w : Word}
    (hw : s.mem.read s.pc.toNat = w) : step s = exec (decodeWord w) s :=
  hw ▸ step_of_fetch_inside hc hs hpc

theorem step_of_fetch_outside (hs : s.status = .running) (hpc : s.memSize ≤ s.pc.toNat) :
    step s = .next (s.raise (.fetchRange s.pc)) := by
  simp [step, hc, hs, fetch_of_ge s hpc]

end Equations

/-- Settles O22: a running machine at a `pc` inside memory answers what `exec` answers, and the decoder gives
well-formed terms only. -/
theorem stepRunsDecodedInstruction : Obligations.StepRunsDecodedInstruction := by
  rintro s i hc hs hpc rfl
  exact ⟨decodeWord_wellFormed _, step_of_fetch_inside hc hs hpc⟩

/-- Settles O24: the fetch answers no word, and raising is the status change. -/
theorem fetchOutsideMemoryFaults : Obligations.FetchOutsideMemoryFaults := fun _ hc hs hpc =>
  step_of_fetch_outside hc hs hpc

/-- Settles O25, by the equation of `step` for each of the two statuses. -/
theorem stoppedMachineTakesNoStep : Obligations.StoppedMachineTakesNoStep := fun _ hc =>
  ⟨step_of_halted hc, fun _ => step_of_faulted hc⟩

/-- Settles O26: the fetch fault is a next state, and so is what the instruction answers. -/
theorem runningMachineAlwaysSteps : Obligations.RunningMachineAlwaysSteps := by
  intro s hc hs
  rcases Nat.lt_or_ge s.pc.toNat s.memSize with hpc | hpc
  · rw [step_of_fetch_inside hc hs hpc]
    exact everyInstructionCompletes _ s
  · exact ⟨_, step_of_fetch_outside hc hs hpc⟩

/-- The state that `withFetchWord` answers at a `pc` inside memory. -/
theorem withFetchWord_of_lt {s : State} (hpc : s.pc.toNat < s.memSize) (w : Nat) :
    s.withFetchWord 16 w = { s with mem := s.mem.write s.pc.toNat (BitVec.ofNat 16 w) } := if_pos hpc

/-- Settles O23: the placed word is a memory write at `pc`, which the fetch reads back. -/
theorem placedWordRunsNext : Obligations.PlacedWordRunsNext := by
  intro s w hc hs hpc _
  rw [withFetchWord_of_lt hpc]
  have hread := read_write_same s.mem s.pc.toNat (BitVec.ofNat 16 w)
  have hstep := step_of_word_at_pc (s := { s with mem := s.mem.write s.pc.toNat (BitVec.ofNat 16 w) }) hc hs
    hpc hread
  exact ⟨hstep, hread, fun a ha => read_write_other s.mem _ a _ ha, rfl⟩

/-- The inversion of `step`: a fetch fault, or an effect of the instruction at `pc`. -/
theorem step_effect {s t : State} (h : step s = .next t) :
    configValid s.config = true ∧ s.status = .running ∧
      ((s.memSize ≤ s.pc.toNat ∧ t = s.raise (.fetchRange s.pc)) ∨
        (s.pc.toNat < s.memSize ∧ Effect s (decodeWord (s.mem.read s.pc.toNat)) t)) := by
  obtain ⟨hc, hs, hfault | ⟨hpc, hexec⟩⟩ := step_next_cases s t h
  · exact ⟨hc, hs, .inl hfault⟩
  · exact ⟨hc, hs, .inr ⟨hpc, effect_of_exec hexec⟩⟩

/-- Settles O27: no effect changes the configuration, and no fetch fault does. -/
theorem configurationNeverChanges : Obligations.ConfigurationNeverChanges := by
  intro s t h
  obtain ⟨-, -, ⟨-, rfl⟩ | ⟨-, heffect⟩⟩ := step_effect h
  · rfl
  · exact heffect.config_eq

theorem configValid_of_step {s t : State} (h : step s = .next t) : configValid t.config = true := by
  rw [configurationNeverChanges s t h]
  exact (step_effect h).1

/-! Halts and faults -/

section Stops

variable {i : Instr} {s t : State}

/-- A running machine is halted by a self jump only (44_jump.md R95), which keeps `pc`. -/
theorem Effect.of_halted (h : Effect s i t) (hs : s.status = .running) (ht : t.status = .halted) :
    (i = .j s.pc.toNat ∨ i = .jal s.pc.toNat) ∧ t.pc = s.pc ∧ t.mem = s.mem := by
  cases h with
  | halt => exact ⟨.inl rfl, rfl, rfl⟩
  | linkHalt => exact ⟨.inr rfl, rfl, rfl⟩
  | _ => simp [hs] at ht

theorem exec_self_jump_halts (hi : i = .j s.pc.toNat ∨ i = .jal s.pc.toNat) (h : exec i s = .next t) :
    t.status = .halted := by
  rcases hi with rfl | rfl
  · rw [exec_j, jumpOrHalt_of_eq rfl] at h
    rw [← Host.Outcome.next.inj h, halt_status]
  · rw [exec_jal, jumpOrHalt_of_eq (congrArg BitVec.toNat (setReg_pc s linkReg (linkValue s)).symm)] at h
    rw [← Host.Outcome.next.inj h, halt_status]

/-- A running machine is faulted by a load or store outside memory only (60_exceptions.md R134). -/
theorem Effect.of_faulted (h : Effect s i t) (hs : s.status = .running) {f : Fault}
    (ht : t.status = .faulted f) :
    t = s.raise f ∧ ∃ rB rA imm, (i = .lw rB rA imm ∨ i = .sw rB rA imm) ∧
      f = .addressRange (effectiveAddress s rA imm) ∧
      (effectiveAddress s rA imm < 0 ∨ s.memSize ≤ effectiveAddress s rA imm) := by
  cases h with
  | addressFault hi hout =>
    obtain rfl := Status.faulted.inj ht
    exact ⟨rfl, _, _, _, hi, rfl, hout⟩
  | _ => simp [hs] at ht

end Stops

/-- Settles O30: a self jump has the effect `halt` or `linkHalt`, and these are the effects that halt. -/
theorem haltExactlyAtSelfJump : Obligations.HaltExactlyAtSelfJump := by
  intro s t h
  have hc := configValid_of_step h
  obtain ⟨-, hs, ⟨hpc, rfl⟩ | ⟨hpc, hexec⟩⟩ := step_next_cases s t h
  · exact ⟨iff_of_false nofun fun hin => absurd hin.1 (Nat.not_lt.2 hpc), nofun⟩
  · have hhalt := (effect_of_exec hexec).of_halted hs
    refine ⟨⟨fun ht => ⟨hpc, (hhalt ht).1⟩, fun ⟨_, hjump⟩ => exec_self_jump_halts hjump hexec⟩, fun ht => ?_⟩
    obtain ⟨-, hkept, -⟩ := hhalt ht
    exact ⟨hkept, step_of_halted hc ht⟩

/-- Settles O31: the fetch fault and the effect `addressFault` raise, and nothing else does. -/
theorem faultsArePreciseAndTerminal : Obligations.FaultsArePreciseAndTerminal := by
  intro s t f h ht
  have hlater := step_of_faulted (configValid_of_step h) ht
  obtain ⟨-, hs, ⟨hpc, rfl⟩ | ⟨hpc, heffect⟩⟩ := step_effect h
  · obtain rfl := Status.faulted.inj ht
    exact ⟨rfl, hlater, .inl ⟨hpc, rfl⟩⟩
  · obtain ⟨rfl, hcause⟩ := heffect.of_faulted hs ht
    exact ⟨rfl, hlater, .inr ⟨hpc, hcause⟩⟩

theorem configValid_iff (c : Config) : configValid c = true ↔
    c.memSize ≤ 65472 ∧ cacheConfigValid c.l1 = true ∧ ∀ c2 ∈ c.l2, cacheConfigValid c2 = true := by
  simp [configValid, and_assoc, Option.all_eq_true]

/-- Settles O32: with `MEM_SIZE` at most 65472 a sum from -63 to -1 is stored above memory, and one from
`MEM_SIZE` on is below 2^16 or is stored as itself; the next fetch then faults. -/
theorem branchOutsideMemoryFaultsNext : Obligations.BranchOutsideMemoryFaultsNext := by
  intro s rA rB imm7 hc hs hpc htaken hout
  obtain ⟨hbound : s.memSize ≤ 65472, -⟩ := (configValid_iff _).1 hc
  obtain ⟨hlow, hhigh⟩ := (immInRange_iff _).1 (immInRange_sext7 imm7)
  have htarget := setPc_pc_toNat s (s.pc.toNat + 1 + sext7 imm7)
  have hleaves : s.memSize ≤ (s.setPc (s.pc.toNat + 1 + sext7 imm7)).pc.toNat := by omega
  refine ⟨_, ?_, htarget, hleaves, step_of_fetch_outside hc hs hleaves⟩
  rw [exec_jeq, if_pos htaken]

/-! A store and what is read after it (20_memory.md R38, R41). -/

/-- A fetch is a read at `pc` (20_memory.md R30, R31). -/
theorem fetch_eq_memRead (s : State) : s.fetch = s.memRead s.pc.toNat := by
  simp [State.fetch, State.memRead, State.inRange]

/-- What a read answers after a store inside memory. -/
theorem exec_sw_memRead {s : State} {rB rA : Reg} {imm : Int} (h0 : 0 ≤ effectiveAddress s rA imm)
    (h1 : effectiveAddress s rA imm < s.memSize) :
    ∃ t, exec (.sw rB rA imm) s = .next t ∧
      t.memRead (effectiveAddress s rA imm) = some (s.reg rB) ∧
      ∀ a, a ≠ effectiveAddress s rA imm → t.memRead a = s.memRead a := by
  refine ⟨_, exec_sw_of_inRange h0 h1, ?_, fun a ha => ?_⟩
  · rw [completeAccess_memRead, memRead_storeWord_same _ h0 h1]
  · rw [completeAccess_memRead, memRead_storeWord_other _ h0 ha]

/-- Settles O33: the fetch reads what the store wrote, and another `pc` is another address. -/
theorem storedWordIsFetched : Obligations.StoredWordIsFetched := by
  intro s rB rA imm p hp hin
  obtain ⟨t, hexec, hstored, hothers⟩ := exec_sw_memRead (rB := rB) (s := s) (rA := rA) (imm := imm)
    (by omega) (by omega)
  refine ⟨t, hexec, ?_, fun q hq => ?_⟩
  · rw [fetch_eq_memRead, ← hstored, hp]
    rfl
  · have hne : (q.toNat : Int) ≠ effectiveAddress s rA imm := by
      rw [hp]
      exact fun h => hq (BitVec.eq_of_toNat_eq (Int.ofNat_inj.1 h))
    rw [fetch_eq_memRead, fetch_eq_memRead]
    exact hothers q.toNat hne

/-- Settles O34: the store leaves the value at the address, an instruction that does not store there keeps it,
and the load reads it. -/
theorem loadReadsLatestStore : Obligations.LoadReadsLatestStore := by
  intro s t u rB rA rB' rA' imm imm' i h0 h1 hstore hbetween hsame
  obtain ⟨t', ht', hstored, -⟩ := exec_sw_memRead (rB := rB) h0 h1
  obtain rfl := Host.Outcome.next.inj (hstore.symm.trans ht')
  have hkept : u.memRead (effectiveAddress s rA imm) = some (s.reg rB) := by
    rcases hbetween with rfl | ⟨hexec, hother⟩
    · exact hstored
    · rw [← hstored]
      exact (effect_of_exec hexec).memRead_eq _ fun r b k hi => (hother r b k hi).symm
  refine ⟨_, by rw [exec, execLw, hsame, hkept], ?_⟩
  simp

/-! Self loops (70_reset_and_hazards.md R162) -/

theorem setPc_self (s : State) : s.setPc s.pc.toNat = s := by
  rw [State.setPc, mod16_of_word]

theorem run_succ_of_next {M : Host.Core} {s t : M.State} (h : M.step s = .next t) (k : Nat) :
    M.run (k + 1) s = M.run k t := by
  simp only [Host.Core.run, h]

theorem run_of_fixed_point {s : State} (h : step s = .next s) (k : Nat) :
    Host.Core.run Sys2Proof.core k s = .next s := by
  induction k with
  | zero => rfl
  | succ k ih => exact (run_succ_of_next (M := Sys2Proof.core) h k).trans ih

/-- Settles O36: both loops write to `pc` the address that it holds, so the state is a fixed point of `step`.
-/
theorem selfLoopsRunForever : Obligations.SelfLoopsRunForever := by
  intro s k hc hs hpc hloop
  refine run_of_fixed_point ?_ k
  rw [step_of_fetch_inside hc hs hpc]
  rcases hloop with ⟨rA, ignored, hi, hreg⟩ | ⟨rA, rB, hi, hreg⟩
  · rw [hi, exec_jr, hreg, setPc_self]
  · rw [hi, exec_jeq, if_pos hreg, Int.add_neg_cancel_right, setPc_self]

end Sys2Proof.Machine
end

section
/-! Well-formed sets (10_state.md R20, R21): what an access does to the tags of a set, and the accessed tag
held afterwards (50_cache.md R106 to R110). -/

namespace Sys2Proof.Machine

/-! The case "fill" and the victim, from what the set holds. -/

section Cases

variable {S : CacheSet} {tag : Nat}

theorem accessSet_of_absent {i : Nat} (hr : residentIdx S tag = none) (ha : absentIdx S = some i) :
    accessSet S tag = (.miss, fillSlot S i tag) := by
  simp only [accessSet, hr, ha]

theorem absentIdx_eq {i : Nat} {sl : Slot} (hi : S[i]? = some sl) (htag : sl.tag = none)
    (hlow : ∀ j x, j < i → S[j]? = some x → x.tag ≠ none) : absentIdx S = some i := by
  obtain ⟨hilt, rfl⟩ := List.getElem?_eq_some_iff.1 hi
  refine List.findIdx?_eq_some_iff_getElem.2 ⟨hilt, beq_iff_eq.2 htag, fun j hj => ?_⟩
  have hjlow := hlow j _ hj (List.getElem?_eq_getElem (hj.trans hilt))
  simpa using hjlow

/-- Settles O42: no slot matches and slot `i` is the lowest absent one, so the access is the fill of slot `i`.
-/
theorem fillTakesLowestAbsentSlot : Obligations.FillTakesLowestAbsentSlot := by
  intro S tag i sl hmiss hi htag hlow
  rw [accessSet_of_absent (residentIdx_eq_none_of_forall hmiss) (absentIdx_eq hi htag hlow)]
  refine ⟨rfl, length_fillSlot S i tag, ?filled, ?below, ?above⟩
  case filled => simp [getElem?_fillSlot, hi]
  case below =>
    intro j x hj hx
    simp [getElem?_fillSlot, hx, hj, hj.ne, Slot.bump]
  case above =>
    intro j hj
    simp [getElem?_fillSlot, hj.ne', hj.not_gt]

/-- The largest recency is that of some slot (50_cache.md R109). -/
theorem exists_recency_eq_max (h : S ≠ []) : ∃ x ∈ S, x.recency = maxRecency S := by
  induction S with
  | nil => exact absurd rfl h
  | cons x S ih =>
    rcases max_choice x.recency (maxRecency S) with hmax | hmax
    · exact ⟨x, List.mem_cons_self, hmax.symm⟩
    · rcases eq_or_ne S [] with rfl | hS
      · exact ⟨x, List.mem_cons_self, (Nat.max_zero x.recency).symm⟩
      · obtain ⟨y, hy, heq⟩ := ih hS
        exact ⟨y, List.mem_cons_of_mem x hy, heq.trans hmax.symm⟩

theorem victimIdx_lt (h : S ≠ []) : victimIdx S < S.length := by
  obtain ⟨x, hx, heq⟩ := exists_recency_eq_max h
  exact List.findIdx_lt_length_of_exists ⟨x, hx, beq_iff_eq.2 heq⟩

/-- No slot is staler than the victim (50_cache.md R109). -/
theorem recency_le_victim {x y : Slot} (hx : S[victimIdx S]? = some x) (hy : y ∈ S) :
    y.recency ≤ x.recency := by
  obtain ⟨hlt, rfl⟩ := List.getElem?_eq_some_iff.1 hx
  have hmax : S[victimIdx S].recency = maxRecency S := beq_iff_eq.1 (List.findIdx_getElem (w := hlt))
  exact hmax ▸ recency_le_maxRecency hy

end Cases

/-! The tags after an access: as before, or with one more tag in one slot. -/

section Tags

variable (S : CacheSet) (i tag : Nat)

theorem mapIdx_tags {f : Nat → Slot → Slot} (hf : ∀ j sl, (f j sl).tag = sl.tag) :
    (S.mapIdx f).map Slot.tag = S.map Slot.tag := by
  refine List.ext_getElem? fun j => ?_
  rw [List.getElem?_map, List.getElem?_map, List.getElem?_mapIdx, Option.map_map]
  exact congrArg (fun g => Option.map g S[j]?) (funext (hf j))

theorem hitSlot_tags : (hitSlot S i).map Slot.tag = S.map Slot.tag := by
  refine mapIdx_tags S fun j sl => ?_
  split <;> rfl

theorem fillSlot_tags : (fillSlot S i tag).map Slot.tag = (S.map Slot.tag).set i (some tag) := by
  rw [← List.map_set (f := Slot.tag) (a := { tag := some tag, recency := 0 })]
  refine mapIdx_tags _ fun j sl => ?_
  split <;> rfl

theorem evictSlot_tags : (evictSlot S i tag).map Slot.tag = (S.map Slot.tag).set i (some tag) := by
  rw [← List.map_set (f := Slot.tag) (a := { tag := some tag, recency := 0 }), evictSlot, List.map_map]
  rfl

end Tags

/-- What 10_state.md R21 items 1 and 2 ask of two slots' tags, the one with the lower index first: the second
is absent or both are held, and they differ. -/
def TagsInOrder (earlier later : Option Nat) : Prop :=
  (later.isSome → earlier.isSome) ∧ ∀ tag, earlier = some tag → later ≠ some tag

theorem setOk_iff_tags (n : Nat) (S : CacheSet) :
    SetOk n S ↔ S.length = n ∧ (S.map Slot.tag).Pairwise TagsInOrder := by
  refine and_congr_right fun _ => ?_
  rw [List.Nodup, List.pairwise_filterMap, ← List.pairwise_and_iff, List.pairwise_map]
  refine List.Pairwise.iff fun x y => ?_
  simp only [TagsInOrder]
  grind

/-- A tag that no slot holds can be put into a slot below which all slots hold one. -/
theorem tagsInOrder_set {tags : List (Option Nat)} {i tag : Nat} (h : tags.Pairwise TagsInOrder)
    (hnew : some tag ∉ tags) (hbelow : ∀ j (hj : j < tags.length), j < i → tags[j].isSome) :
    (tags.set i (some tag)).Pairwise TagsInOrder := by
  rw [List.pairwise_iff_getElem] at h ⊢
  intro j k hj hk hjk
  rw [List.length_set] at hj hk
  have hjnew : tags[j] ≠ some tag := fun e => hnew (e ▸ List.getElem_mem hj)
  have hknew : tags[k] ≠ some tag := fun e => hnew (e ▸ List.getElem_mem hk)
  rw [List.getElem_set, List.getElem_set]
  split
  · rw [if_neg (by omega)]
    exact ⟨fun _ => rfl, fun t ht e => hknew (e.trans ht.symm)⟩
  · split
    · exact ⟨fun _ => hbelow j hj (by omega), fun t ht e => hjnew (ht.trans e.symm)⟩
    · exact h j k hj hk hjk

/-! The claims about one access to a set. -/

section Access

variable {n : Nat} {S : CacheSet} {tag : Nat}

theorem some_notMem_tags (h : residentIdx S tag = none) : some tag ∉ S.map Slot.tag := by
  rw [List.mem_map]
  rintro ⟨sl, hsl, htag⟩
  exact residentIdx_none S tag h sl hsl htag

theorem SetOk.accessSet (h : SetOk n S) (tag : Nat) : SetOk n (accessSet S tag).2 := by
  obtain ⟨hlen, htags⟩ := (setOk_iff_tags n S).1 h
  refine (setOk_iff_tags n _).2 ⟨(length_accessSet S tag).trans hlen, ?_⟩
  rcases accessSet_cases S tag with ⟨i, -, heq⟩ | ⟨i, hmiss, habsent, heq⟩ | ⟨hmiss, hfull, heq⟩ <;> rw [heq]
  · rwa [hitSlot_tags]
  · rw [fillSlot_tags]
    obtain ⟨hi, -, hlow⟩ := absentIdx_some S i habsent
    refine tagsInOrder_set htags (some_notMem_tags hmiss) fun j hj hji => ?_
    rw [List.getElem_map, Option.isSome_iff_ne_none]
    exact hlow j hji
  · rw [evictSlot_tags]
    refine tagsInOrder_set htags (some_notMem_tags hmiss) fun j hj _ => ?_
    rw [List.getElem_map, Option.isSome_iff_ne_none]
    exact absentIdx_none S hfull _ (List.getElem_mem _)

/-- Settles O44: only a fill and an eviction change a tag. The filled slot was absent, and the evicted one is
the victim of a full set. -/
theorem accessKeepsSetWellFormed : Obligations.AccessKeepsSetWellFormed := by
  intro n S tag hS
  refine ⟨hS.accessSet tag, fun j x y hx hy hheld => ?_⟩
  rcases accessSet_cases S tag with ⟨i, -, heq⟩ | ⟨i, -, habsent, heq⟩ | ⟨-, hfull, heq⟩ <;> rw [heq] at hy
  · rw [getElem?_hitSlot, hx] at hy
    obtain rfl := Option.some.inj hy
    have htag : (if j = i then { x with recency := 0 } else x.bump).tag = x.tag := by split <;> rfl
    rw [htag]
    exact ⟨hheld, fun hne => absurd rfl hne⟩
  · obtain ⟨hi, hnone, -⟩ := absentIdx_some S i habsent
    have hji : j ≠ i := by
      rintro rfl
      exact hheld (by rw [← Option.some.inj ((List.getElem?_eq_getElem hi).symm.trans hx), hnone])
    rw [getElem?_fillSlot, hx, Option.map_some, if_neg hji] at hy
    obtain rfl := Option.some.inj hy
    have htag : (if j < i then x.bump else x).tag = x.tag := by split <;> rfl
    rw [htag]
    exact ⟨hheld, fun hne => absurd rfl hne⟩
  · rw [getElem?_evictSlot, hx] at hy
    obtain rfl := Option.some.inj hy
    split
    · rename_i hvictim
      subst hvictim
      exact ⟨nofun, fun _ => ⟨absentIdx_none S hfull, fun z hz => recency_le_victim hx hz⟩⟩
    · exact ⟨hheld, fun hne => absurd rfl hne⟩

/-- After an access to a set that has a slot, a slot holds the tag, at recency 0 after a hit and at 1 after a
miss (50_cache.md R110 item 1). -/
theorem accessSet_holds_tag (h : S ≠ []) (tag : Nat) :
    ∃ sl ∈ (accessSet S tag).2, sl.tag = some tag ∧
      sl.recency = if (accessSet S tag).1 = .hit then 0 else 1 := by
  rcases accessSet_cases S tag with ⟨i, hres, heq⟩ | ⟨i, -, habsent, heq⟩ | ⟨-, -, heq⟩ <;> rw [heq]
  · obtain ⟨hi, htag, -⟩ := residentIdx_some S tag i hres
    refine ⟨{ S[i] with recency := 0 }, List.mem_of_getElem? (i := i) ?_, htag, rfl⟩
    rw [getElem?_hitSlot, List.getElem?_eq_getElem hi, Option.map_some, if_pos rfl]
  · obtain ⟨hi, -, -⟩ := absentIdx_some S i habsent
    refine ⟨{ tag := some tag, recency := 1 }, List.mem_of_getElem? (i := i) ?_, rfl, rfl⟩
    rw [getElem?_fillSlot, List.getElem?_eq_getElem hi, Option.map_some, if_pos rfl]
  · refine ⟨{ tag := some tag, recency := 1 }, List.mem_of_getElem? (i := victimIdx S) ?_, rfl, rfl⟩
    rw [getElem?_evictSlot, List.getElem?_eq_getElem (victimIdx_lt h), Option.map_some, if_pos rfl]

theorem accessSet_hit_of_mem {sl : Slot} (hsl : sl ∈ S) (htag : sl.tag = some tag) :
    (accessSet S tag).1 = .hit := by
  rcases accessSet_cases S tag with ⟨i, -, heq⟩ | ⟨i, hmiss, -, -⟩ | ⟨hmiss, -, -⟩
  · rw [heq]
  · exact absurd htag (residentIdx_none S tag hmiss sl hsl)
  · exact absurd htag (residentIdx_none S tag hmiss sl hsl)

end Access

end Sys2Proof.Machine
end

section
/-! One access to a cache (50_cache.md R103): the set of the address's line, the sets of other lines, and the
well-formedness of the whole (10_state.md R20). -/

namespace Sys2Proof.Machine

section

variable (C : Cache) (addr : Nat)

theorem levelAccess_sets_length : (levelAccess C addr).cache.sets.length = C.sets.length :=
  List.length_set ..

theorem levelAccess_sets_other {line : Nat} (h : line ≠ lineOf C.config addr) :
    (levelAccess C addr).cache.sets[line]? = C.sets[line]? :=
  List.getElem?_set_ne h.symm

theorem setAt_of_lt {line : Nat} (h : line < C.sets.length) : C.setAt line = C.sets[line] := by
  simp [Cache.setAt, h]

theorem levelAccess_setAt_same (h : lineOf C.config addr < C.sets.length) :
    (levelAccess C addr).cache.setAt (lineOf C.config addr) =
      (accessSet (C.setAt (lineOf C.config addr)) (tagOf C.config addr)).2 := by
  simp [Cache.setAt, levelAccess_sets, h]

end

/-- Settles O45: the access writes the set of the address's line back, and nothing else. -/
theorem levelAccessTouchesOneSet : Obligations.LevelAccessTouchesOneSet := fun C addr =>
  ⟨rfl, rfl, levelAccess_sets_length C addr, fun _ h => levelAccess_sets_other C addr h⟩

/-- An access keeps a cache well formed: the set written back is the accessed one, or there is none. -/
theorem CacheOk.levelAccess {C : Cache} (h : CacheOk C) (addr : Nat) :
    CacheOk (levelAccess C addr).cache := by
  obtain ⟨hlen, hsets⟩ := h
  refine ⟨(levelAccess_sets_length C addr).trans hlen, fun S hS => ?_⟩
  obtain ⟨line, hline, rfl⟩ := List.getElem_of_mem hS
  simp only [levelAccess_sets, List.getElem_set]
  rw [levelAccess_sets_length] at hline
  split
  · rename_i hsame
    subst hsame
    rw [setAt_of_lt C hline]
    exact (hsets _ (List.getElem_mem hline)).accessSet _
  · exact hsets _ (List.getElem_mem hline)

/-- In a valid well-formed cache every line has a set, and the set has a slot. -/
theorem CacheOk.setAt_ne_nil {C : Cache} (hC : CacheOk C) (hc : cacheConfigValid C.config = true)
    (addr : Nat) : lineOf C.config addr < C.sets.length ∧ C.setAt (lineOf C.config addr) ≠ [] := by
  obtain ⟨hlen, hsets⟩ := hC
  have hlt : lineOf C.config addr < C.sets.length := hlen ▸ lineOf_lt hc addr
  refine ⟨hlt, fun hnil => ?_⟩
  rw [setAt_of_lt C hlt] at hnil
  obtain ⟨hassoc, -⟩ := hsets _ (List.getElem_mem hlt)
  rw [hnil] at hassoc
  exact ((cacheConfigValid_iff _).1 hc).2.1.ne hassoc

/-- Settles O46: the two addresses have one line and one tag, and after the first access a slot of that line
holds the tag. -/
theorem accessedBlockIsResident : Obligations.AccessedBlockIsResident := by
  intro C a b hc hC hblock
  obtain ⟨hline, htag⟩ := (line_and_tag_eq_iff C.config a b).2 hblock
  obtain ⟨hlt, hne⟩ := hC.setAt_ne_nil hc a
  obtain ⟨sl, hsl, hslTag, hrec⟩ := accessSet_holds_tag hne (tagOf C.config a)
  rw [← levelAccess_setAt_same C a hlt] at hsl
  refine ⟨?_, sl, hsl, hslTag, hrec⟩
  rw [levelAccess_residency, levelAccess_config, ← hline, ← htag]
  exact accessSet_hit_of_mem hsl hslTag

end Sys2Proof.Machine
end

section
/-! The partial bump of a fill is unobservable (50_cache.md R111). The slots that it leaves alone are absent,
and the recency of an absent slot is read by nothing: the victim is sought in full sets only. So a set and the
set under the canonical policy stay equal up to the recencies of absent slots. -/

namespace Sys2Proof.Machine

/-- What a slot holds, its recency forgotten where it is absent. -/
def Slot.occupant (sl : Slot) : Option (Nat × Nat) := sl.tag.map fun tag => (tag, sl.recency)

/-- Two sets that differ in the recencies of absent slots only. -/
def SameOccupants (S T : CacheSet) : Prop := S.map Slot.occupant = T.map Slot.occupant

theorem occupant_eq_none_iff (sl : Slot) : sl.occupant = none ↔ sl.tag = none := by
  simp [Slot.occupant]

theorem occupant_map_fst (sl : Slot) : sl.occupant.map Prod.fst = sl.tag := by
  cases h : sl.tag <;> simp [Slot.occupant, h]

theorem occupant_bump (sl : Slot) : sl.bump.occupant = sl.occupant.map fun o => (o.1, o.2 + 1) := by
  cases h : sl.tag <;> simp [Slot.occupant, h]

theorem occupant_recency_zero (sl : Slot) :
    ({ sl with recency := 0 } : Slot).occupant = sl.occupant.map fun o => (o.1, 0) := by
  cases h : sl.tag <;> simp [Slot.occupant, h]

theorem eq_of_occupant_eq {x y : Slot} (h : x.occupant = y.occupant) (hx : x.tag ≠ none) : x = y := by
  obtain ⟨tx, rx⟩ := x
  obtain ⟨ty, ry⟩ := y
  cases tx with
  | none => exact absurd rfl hx
  | some a => cases ty <;> simp_all [Slot.occupant]

section

variable {S T : CacheSet}

theorem SameOccupants.getElem? (h : SameOccupants S T) (j : Nat) :
    S[j]?.map Slot.occupant = T[j]?.map Slot.occupant := by
  simpa only [List.getElem?_map] using congrArg (·[j]?) h

/-- The scans for a tag and for an absent slot do not see the recencies. -/
theorem SameOccupants.tags_eq (h : SameOccupants S T) : S.map Slot.tag = T.map Slot.tag := by
  simpa only [List.map_map, Function.comp_def, occupant_map_fst] using
    congrArg (List.map (Option.map Prod.fst)) h

theorem findIdx?_tag (p : Option Nat → Bool) :
    S.findIdx? (fun sl => p sl.tag) = (S.map Slot.tag).findIdx? p := by
  simp [List.findIdx?_map, Function.comp_def]

theorem SameOccupants.residentIdx_eq (h : SameOccupants S T) (tag : Nat) :
    residentIdx S tag = residentIdx T tag := by
  rw [residentIdx, residentIdx, findIdx?_tag (· == some tag), findIdx?_tag (· == some tag), h.tags_eq]

theorem SameOccupants.absentIdx_eq (h : SameOccupants S T) : absentIdx S = absentIdx T := by
  rw [absentIdx, absentIdx, findIdx?_tag (· == none), findIdx?_tag (· == none), h.tags_eq]

/-- Full sets with the same occupants are equal. -/
theorem SameOccupants.eq_of_full (h : SameOccupants S T) (hfull : ∀ x ∈ S, x.tag ≠ none) : S = T := by
  refine List.ext_getElem? fun j => ?_
  have hj := h.getElem? j
  cases hS : S[j]? with
  | none => simpa [hS, eq_comm] using hj
  | some x =>
    rw [hS] at hj
    obtain ⟨y, hy, hocc⟩ := Option.map_eq_some_iff.1 hj.symm
    rw [hy, eq_of_occupant_eq hocc.symm (hfull x (List.mem_of_getElem? hS))]

/-- Slots that are changed in step keep the same occupants, where each pair does. -/
theorem SameOccupants.map_slots (h : SameOccupants S T) {S' T' : CacheSet} {f g : Nat → Slot → Slot}
    (hS' : ∀ j : Nat, S'[j]? = S[j]?.map (f j)) (hT' : ∀ j : Nat, T'[j]? = T[j]?.map (g j))
    (hfg : ∀ j x y, S[j]? = some x → x.occupant = y.occupant → (f j x).occupant = (g j y).occupant) :
    SameOccupants S' T' := by
  refine List.ext_getElem? fun j => ?_
  rw [List.getElem?_map, List.getElem?_map, hS', hT']
  have hj := h.getElem? j
  cases hS : S[j]? with
  | none =>
    rw [hS] at hj
    rw [Option.map_eq_none_iff.1 hj.symm]
    rfl
  | some x =>
    rw [hS] at hj
    obtain ⟨y, hy, hocc⟩ := Option.map_eq_some_iff.1 hj.symm
    rw [hy]
    exact congrArg some (hfg j x y hS hocc.symm)

theorem SameOccupants.hitSlot (h : SameOccupants S T) (i : Nat) :
    SameOccupants (hitSlot S i) (hitSlot T i) := by
  refine h.map_slots (getElem?_hitSlot S i) (getElem?_hitSlot T i) fun j x y _ hocc => ?_
  split
  · rw [occupant_recency_zero, occupant_recency_zero, hocc]
  · rw [occupant_bump, occupant_bump, hocc]

/-- The partial bump against the whole one: they differ above the filled slot, where all slots are absent. -/
theorem SameOccupants.fillSlot (h : SameOccupants S T) {i : Nat} (tag : Nat)
    (habove : ∀ (j : Nat) x, i < j → S[j]? = some x → x.tag = none) :
    SameOccupants (fillSlot S i tag) (fillSlotWhole T i tag) := by
  refine h.map_slots (fun j => getElem?_fillSlot S i j tag) (fun j => getElem?_evictSlot T i j tag)
    fun j x y hx hocc => ?_
  rcases Nat.lt_trichotomy j i with hlt | rfl | hgt
  · rw [if_neg hlt.ne, if_pos hlt, if_neg hlt.ne, occupant_bump, occupant_bump, hocc]
  · rw [if_pos rfl, if_pos rfl]
  · have hnone := (occupant_eq_none_iff x).2 (habove j x hgt hx)
    rw [if_neg hgt.ne', if_neg hgt.not_gt, if_neg hgt.ne', occupant_bump, ← hocc, hnone]
    rfl

/-- Above the lowest absent slot of a well-formed set all slots are absent (10_state.md R21 item 2). -/
theorem SetOk.absent_above {n i j : Nat} {x : Slot} (hS : SetOk n S) (hi : absentIdx S = some i) (hij : i < j)
    (hx : S[j]? = some x) : x.tag = none := by
  obtain ⟨-, -, hordered⟩ := hS
  obtain ⟨hilt, hnone, -⟩ := absentIdx_some S i hi
  obtain ⟨hjlt, rfl⟩ := List.getElem?_eq_some_iff.1 hx
  have himp := List.pairwise_iff_getElem.1 hordered i j hilt hjlt hij
  rw [hnone] at himp
  exact Option.not_isSome_iff_eq_none.1 fun hsome => nomatch himp hsome

/-- The simulation step: both policies answer the same and keep the same occupants. -/
theorem SameOccupants.access {n : Nat} (hS : SetOk n S) (h : SameOccupants S T) (tag : Nat) :
    (accessSet S tag).1 = (accessSetWhole T tag).1 ∧
      SameOccupants (accessSet S tag).2 (accessSetWhole T tag).2 := by
  unfold accessSetWhole
  rw [← h.residentIdx_eq tag, ← h.absentIdx_eq]
  rcases accessSet_cases S tag with ⟨i, hres, heq⟩ | ⟨i, hmiss, habsent, heq⟩ | ⟨hmiss, hfull, heq⟩
  · rw [heq, hres]
    exact ⟨rfl, h.hitSlot i⟩
  · rw [heq, hmiss, habsent]
    exact ⟨rfl, h.fillSlot tag fun j x hij hx => hS.absent_above habsent hij hx⟩
  · rw [heq, hmiss, hfull, h.eq_of_full (absentIdx_none S hfull)]
    exact ⟨rfl, rfl⟩

end

theorem residencies_eq_of_sameOccupants {n : Nat} {S T : CacheSet} (hS : SetOk n S) (h : SameOccupants S T)
    (tags : List Nat) : residencies accessSet S tags = residencies accessSetWhole T tags := by
  induction tags generalizing S T with
  | nil => rfl
  | cons tag tags ih =>
    obtain ⟨hanswer, hafter⟩ := SameOccupants.access hS h tag
    rw [residencies, residencies, hanswer, ih (hS.accessSet tag) hafter]

/-- Settles O48, by the simulation started from the same set on both sides. -/
theorem partialBumpIsUnobservable : Obligations.PartialBumpIsUnobservable := fun _ _ tags hS =>
  residencies_eq_of_sameOccupants hS rfl tags

end Sys2Proof.Machine
end

section
/-! The source's scenarios (50_cache.md R122 items 1 and 2). -/

namespace Sys2Proof.Machine

/-! A one-line cache of one-word blocks is its one set: every address is its own tag. -/

section OneSet

/-- The fully associative cache of two one-word slots. -/
def twoSlotCache (S : CacheSet) : Cache :=
  { config := { size := 2, assoc := 2, blockSize := 1 }, sets := [S] }

theorem twoSlotCache_sets (S : CacheSet) : (twoSlotCache S).sets = [S] := rfl

theorem levelAccess_twoSlotCache (S : CacheSet) (addr : Nat) :
    levelAccess (twoSlotCache S) addr =
      { residency := (accessSet S addr).1, line := 0, cache := twoSlotCache (accessSet S addr).2 } := by
  simp [levelAccess, twoSlotCache, lineOf, tagOf, blockNumber, cacheNumLines, Cache.setAt, Nat.mod_one]

theorem levelResidencies_twoSlotCache (S : CacheSet) (addrs : List Nat) :
    levelResidencies (twoSlotCache S) addrs = residencies accessSet S addrs := by
  induction addrs generalizing S with
  | nil => rfl
  | cons addr addrs ih => rw [levelResidencies, residencies, levelAccess_twoSlotCache, ih]

theorem levelAccesses_twoSlotCache (S : CacheSet) (addrs : List Nat) :
    levelAccesses (twoSlotCache S) addrs =
      twoSlotCache (addrs.foldl (fun S tag => (accessSet S tag).2) S) := by
  induction addrs generalizing S with
  | nil => rfl
  | cons addr addrs ih =>
    rw [List.foldl_cons, ← ih]
    simp only [levelAccesses, List.foldl_cons, levelAccess_twoSlotCache]

end OneSet

/-! The five accesses of the first scenario, to one set. -/

section TwoSlots

variable {A B C r q : Nat}

theorem accessSet_two_absent :
    accessSet [Slot.absent, Slot.absent] A = (.miss, [⟨some A, 1⟩, Slot.absent]) := by
  simp [accessSet, residentIdx, absentIdx, Slot.absent, fillSlot, Slot.bump, List.findIdx?_cons]

theorem accessSet_one_absent (h : A ≠ B) :
    accessSet [⟨some A, r⟩, Slot.absent] B = (.miss, [⟨some A, r + 1⟩, ⟨some B, 1⟩]) := by
  simp [accessSet, residentIdx, absentIdx, Slot.absent, fillSlot, Slot.bump, List.findIdx?_cons, h]

theorem accessSet_first_resident :
    accessSet [⟨some A, r⟩, ⟨some B, q⟩] A = (.hit, [⟨some A, 0⟩, ⟨some B, q + 1⟩]) := by
  simp [accessSet, residentIdx, hitSlot, Slot.bump, List.findIdx?_cons]

theorem accessSet_second_stalest (hA : A ≠ C) (hB : B ≠ C) (hr : r < q) :
    accessSet [⟨some A, r⟩, ⟨some B, q⟩] C = (.miss, [⟨some A, r + 1⟩, ⟨some C, 1⟩]) := by
  simp [accessSet, residentIdx, absentIdx, evictSlot, victimIdx, maxRecency, Slot.bump, List.findIdx?_cons,
    List.findIdx_cons, hA, hB, hr.le, beq_eq_false_iff_ne.2 hr.ne]

theorem accessSet_miss_of_other (hA : A ≠ C) (hB : B ≠ C) :
    (accessSet [⟨some A, r⟩, ⟨some B, q⟩] C).1 = .miss := by
  simp [accessSet, residentIdx, absentIdx, List.findIdx?_cons, hA, hB]

end TwoSlots

/-! Direct-mapped thrashing. -/

section DirectMapped

theorem accessSet_single_miss {x : Slot} {tag : Nat} (h : x.tag ≠ some tag) :
    accessSet [x] tag = (.miss, [⟨some tag, 1⟩]) := by
  have hmiss : residentIdx [x] tag = none := residentIdx_eq_none_of_forall (by simpa using h)
  rcases hx : x.tag with _ | held
  · rw [accessSet_of_absent hmiss (absentIdx_eq (i := 0) rfl hx nofun)]
    rfl
  · rw [accessSet_of_full hmiss (absentIdx_eq_none_of_forall (by simp [hx]))]
    simp [victimIdx, maxRecency, evictSlot, Slot.bump]

/-- In a set of one slot an access to another tag misses and replaces the tag. -/
theorem levelAccess_single_miss {C : Cache} {addr : Nat} {x : Slot}
    (hset : C.setAt (lineOf C.config addr) = [x]) (htag : x.tag ≠ some (tagOf C.config addr)) :
    (levelAccess C addr).residency = .miss ∧
      (levelAccess C addr).cache.setAt (lineOf C.config addr) = [⟨some (tagOf C.config addr), 1⟩] := by
  have hlt : lineOf C.config addr < C.sets.length := by
    by_contra hge
    simp [Cache.setAt, Nat.not_lt.1 hge] at hset
  rw [levelAccess_residency, levelAccess_setAt_same C addr hlt, hset, accessSet_single_miss htag]
  exact ⟨rfl, rfl⟩

/-- Two accesses to one line with different tags, from a slot that holds neither the first tag: both miss. -/
theorem levelResidencies_two_misses {C : Cache} {a b : Nat} {x : Slot}
    (hline : lineOf C.config a = lineOf C.config b) (htag : tagOf C.config a ≠ tagOf C.config b)
    (hset : C.setAt (lineOf C.config a) = [x]) (hx : x.tag ≠ some (tagOf C.config a)) (addrs : List Nat) :
    ∃ C' : Cache, C'.config = C.config ∧ C'.setAt (lineOf C.config a) = [⟨some (tagOf C.config b), 1⟩] ∧
      levelResidencies C (a :: b :: addrs) = .miss :: .miss :: levelResidencies C' addrs := by
  obtain ⟨hmissA, hsetA⟩ := levelAccess_single_miss hset hx
  obtain ⟨hmissB, hsetB⟩ := levelAccess_single_miss (C := (levelAccess C a).cache) (addr := b)
    (by rwa [levelAccess_config, ← hline]) (fun e => htag (Option.some.inj e))
  refine ⟨(levelAccess (levelAccess C a).cache b).cache, rfl, ?_, ?_⟩
  · rwa [levelAccess_config, ← hline] at hsetB
  · rw [levelResidencies, levelResidencies, hmissA, hmissB]

theorem emptyCache_setAt {c : CacheConfig} {line : Nat} (h : line < cacheNumLines c) :
    (emptyCache c).setAt line = List.replicate c.assoc Slot.absent := by
  simp [Cache.setAt, emptyCache, h]

end DirectMapped

/-- Settles O47: the first scenario access by access; the second is twice the pair of misses. -/
theorem sourceCacheScenarios : Obligations.SourceCacheScenarios := by
  refine ⟨fun A B C hAB hAC hBC => ?lru, fun c a b hc hassoc hline htag => ?thrashing⟩
  case lru =>
    have hempty : emptyCache { size := 2, assoc := 2, blockSize := 1 } =
      twoSlotCache [Slot.absent, Slot.absent] := rfl
    rw [hempty]
    simp only [levelResidencies_twoSlotCache, levelAccesses_twoSlotCache, residencies, List.foldl_cons,
      List.foldl_nil, accessSet_two_absent, accessSet_one_absent hAB, accessSet_first_resident,
      accessSet_second_stalest hAC hBC (Nat.succ_pos _), accessSet_miss_of_other hAB hBC.symm,
      twoSlotCache_sets, and_self]
  case thrashing =>
    have hset : (emptyCache c).setAt (lineOf c a) = [Slot.absent] := by
      rw [emptyCache_setAt (lineOf_lt hc a), hassoc, List.replicate_one]
    obtain ⟨C, hconfig, hsetC, hfirst⟩ :=
      levelResidencies_two_misses (C := emptyCache c) hline htag hset nofun [a, b]
    obtain ⟨C', -, -, hsecond⟩ := levelResidencies_two_misses (C := C) (a := a) (b := b) (by rwa [hconfig])
      (by rwa [hconfig]) (by rwa [hconfig]) (by rw [hconfig]; exact fun e => htag (Option.some.inj e).symm) []
    rw [hfirst, hsecond, levelResidencies]

end Sys2Proof.Machine
end

section
/-! What an effect does to the memory, and to the caches and the trace (20_memory.md R32; 50_cache.md R115 to
R120): nothing, or one store, and nothing, or one access. -/

namespace Sys2Proof.Machine

/-- The levels that an access reaches (50_cache.md R116, R117). -/
def accessLevels (s : State) (addr : Nat) (isStore : Bool) : List Level :=
  if s.l2 = none ∨ eventKind isStore (levelAccess s.l1 addr).residency = .hit then [.l1] else [.l1, .l2]

section Accessed

variable {s t : State} {addr : Nat} {isStore : Bool}

theorem CachesAccessed.l2_cases (h : CachesAccessed s t addr isStore) :
    t.l2 = s.l2 ∨ ∃ c2, s.l2 = some c2 ∧ t.l2 = some (levelAccess c2 addr).cache := by
  cases h2 : s.l2 with
  | none => exact .inl (h.of_one_level h2).1
  | some c2 =>
    by_cases hk : eventKind isStore (levelAccess s.l1 addr).residency = .hit
    · exact .inl (h.of_hit h2 hk).1
    · exact .inr ⟨c2, rfl, (h.of_not_hit h2 hk).1⟩

/-- One event per level that the access reaches, each with the instruction's `pc`, the address, and the line
of the address in that level (50_cache.md R118, R120). -/
theorem CachesAccessed.events (h : CachesAccessed s t addr isStore) :
    ∃ es, t.trace = s.trace ++ es ∧ es.map Event.level = accessLevels s addr isStore ∧
      ∀ e ∈ es, e.pc = s.pc ∧ e.addr = addr ∧ ∃ c ∈ levelConfig s e.level, e.line = lineOf c addr := by
  obtain ⟨-, hrest⟩ := h
  cases h2 : s.l2 with
  | none =>
    rw [h2] at hrest
    exact ⟨_, hrest.2, by simp [accessLevels, h2], by simp [levelConfig]⟩
  | some c2 =>
    rw [h2] at hrest
    by_cases hk : eventKind isStore (levelAccess s.l1 addr).residency = .hit
    · exact ⟨_, ((if_pos hk).mp hrest).2, by simp [accessLevels, hk], by simp [levelConfig]⟩
    · exact ⟨_, ((if_neg hk).mp hrest).2, by simp [accessLevels, h2, hk], by simp [levelConfig, h2]⟩

end Accessed

section Effects

variable {i : Instr} {s t : State}

/-- An instruction leaves caches and trace alone and owes no event, or makes one access to an address in
memory. -/
theorem Effect.caches (h : Effect s i t) :
    (SameCaches s t ∧ eventLevels i s = []) ∨
      ∃ addr isStore, addr < s.memSize ∧ CachesAccessed s t addr isStore ∧
        eventLevels i s = accessLevels s addr isStore := by
  cases h with
  | goto _ hquiet => exact .inl ⟨⟨rfl, rfl, rfl⟩, hquiet⟩
  | write _ _ _ hquiet => exact .inl ⟨⟨rfl, rfl, rfl⟩, hquiet⟩
  | halt | linkHalt => exact .inl ⟨⟨rfl, rfl, rfl⟩, rfl⟩
  | load h0 h1 =>
    refine .inr ⟨_, false, by omega, completeAccess_caches _ _ _, ?_⟩
    rw [eventLevels, if_pos ((inRange_iff s _).2 ⟨h0, h1⟩)]
    exact (if_congr (or_congr_right (eventKind_load_eq_hit_iff _)) rfl rfl).symm
  | store h0 h1 =>
    refine .inr ⟨_, true, by omega, completeAccess_caches _ _ _, ?_⟩
    rw [eventLevels, if_pos ((inRange_iff s _).2 ⟨h0, h1⟩), accessLevels]
    simp
  | @addressFault _ _ rA imm hi hout =>
    refine .inl ⟨⟨rfl, rfl, rfl⟩, ?_⟩
    have hrange := mt (inRange_iff s (effectiveAddress s rA imm)).1 (by omega)
    rcases hi with rfl | rfl <;> exact if_neg hrange

/-- Settles O38: the effect's accesses are those that `eventLevels` lists. -/
theorem eventsPerInstruction : Obligations.EventsPerInstruction := by
  intro i s t h
  rcases (effect_of_exec h).caches with ⟨⟨-, -, htrace⟩, hnone⟩ | ⟨addr, isStore, -, haccess, hlevels⟩
  · exact ⟨[], by rw [htrace, List.append_nil], hnone.symm⟩
  · obtain ⟨es, htrace, hes, -⟩ := haccess.events
    exact ⟨es, htrace, hes.trans hlevels.symm⟩

theorem Effect.mem_cases (h : Effect s i t) :
    t.mem = s.mem ∨ ∃ a v, a < s.memSize ∧ t.mem = s.mem.write a v := by
  cases h with
  | goto | write | halt | linkHalt | addressFault => exact .inl rfl
  | load => exact .inl (completeAccess_mem _ _ _)
  | store h0 h1 => exact .inr ⟨_, _, by omega, completeAccess_mem _ _ _⟩

end Effects

end Sys2Proof.Machine
end

section
/-! The invariant: each part is kept by a step (10_state.md R16, R20, R21; 50_cache.md R120;
60_exceptions.md R130). -/

namespace Sys2Proof.Machine

/-! Memory -/

section Memory

variable {i : Instr} {s t : State}

theorem Effect.keeps_memory (h : Effect s i t) (hwf : s.mem.wf = true) (hin : MemoryInRange s) :
    t.mem.wf = true ∧ MemoryInRange t := by
  rw [MemoryInRange, h.memSize_eq]
  rcases h.mem_cases with hmem | ⟨a, v, ha, hmem⟩ <;> rw [hmem]
  · exact ⟨hwf, hin⟩
  · refine ⟨write_wf s.mem a v hwf, fun c hc => ?_⟩
    rcases mem_write s.mem a v c hc with hold | rfl
    · exact hin c hold
    · exact ha

/-- Settles O50: the memory is as before, or one word inside it is written. -/
theorem stepKeepsMemoryCanonical : Obligations.StepKeepsMemoryCanonical := by
  intro s t hwf hin h
  obtain ⟨-, -, ⟨-, rfl⟩ | ⟨-, heffect⟩⟩ := step_effect h
  · exact ⟨hwf, hin⟩
  · exact heffect.keeps_memory hwf hin

end Memory

/-! Caches -/

section Caches

variable {i : Instr} {s t : State}

theorem Effect.keeps_caches (h : Effect s i t) (h1 : CacheOk s.l1) (h2 : ∀ C ∈ s.l2, CacheOk C) :
    CacheOk t.l1 ∧ ∀ C ∈ t.l2, CacheOk C := by
  rcases h.caches with ⟨⟨hl1, hl2, -⟩, -⟩ | ⟨addr, isStore, -, haccess, -⟩
  · rw [hl1, hl2]
    exact ⟨h1, h2⟩
  · refine ⟨haccess.l1_eq ▸ h1.levelAccess addr, ?_⟩
    rcases haccess.l2_cases with hl2 | ⟨c2, hs2, hl2⟩ <;> rw [hl2]
    · exact h2
    · rintro C ⟨⟩
      exact (h2 c2 hs2).levelAccess addr

/-- Settles O51: the caches are as before, or one access is made to some of them. -/
theorem stepKeepsCachesWellFormed : Obligations.StepKeepsCachesWellFormed := by
  intro s t h1 h2 h
  obtain ⟨-, -, ⟨-, rfl⟩ | ⟨-, heffect⟩⟩ := step_effect h
  · exact ⟨h1, h2⟩
  · exact heffect.keeps_caches h1 h2

end Caches

/-! Trace -/

section Trace

variable {i : Instr} {s t : State}

theorem levelConfig_eq_of_config (h : t.config = s.config) (l : Level) :
    levelConfig t l = levelConfig s l := by
  cases l with
  | l1 => exact congrArg some (congrArg Config.l1 h)
  | l2 => exact congrArg Config.l2 h

theorem eventOk_of_config (h : t.config = s.config) {e : Event} (he : EventOk s e) : EventOk t e := by
  rw [EventOk, levelConfig_eq_of_config h, show t.memSize = s.memSize from congrArg Config.memSize h]
  exact he

theorem levelConfig_valid (hc : configValid s.config = true) {l : Level} {c : CacheConfig}
    (h : c ∈ levelConfig s l) : cacheConfigValid c = true := by
  obtain ⟨-, h1, h2⟩ := (configValid_iff _).1 hc
  cases l with
  | l1 => exact Option.some.inj h ▸ h1
  | l2 => exact h2 c h

/-- The new events have the fields of 50_cache.md R120, for an instruction inside memory. -/
theorem Effect.keeps_trace (h : Effect s i t) (hc : configValid s.config = true)
    (hpc : s.pc.toNat < s.memSize) (htrace : ∀ e ∈ s.trace, EventOk s e) : ∀ e ∈ t.trace, EventOk t e := by
  intro e he
  refine eventOk_of_config h.config_eq ?_
  rcases h.caches with ⟨⟨-, -, hsame⟩, -⟩ | ⟨addr, isStore, haddr, haccess, -⟩
  · exact htrace e (hsame ▸ he)
  · obtain ⟨es, happend, -, hfields⟩ := haccess.events
    rw [happend] at he
    rcases List.mem_append.1 he with hold | hnew
    · exact htrace e hold
    · obtain ⟨hepc, headdr, c, hlevel, hline⟩ := hfields e hnew
      refine ⟨hepc ▸ hpc, headdr ▸ haddr, c, hlevel, headdr ▸ hline, ?_⟩
      exact hline ▸ lineOf_lt (levelConfig_valid hc hlevel) addr

end Trace

/-! Status -/

section Status

variable {i : Instr} {s t : State}

theorem faultOk_addressRange {rA : Reg} {imm : Int} (hpc : s.pc.toNat < s.memSize)
    (himm : immInRange imm = true)
    (hout : effectiveAddress s rA imm < 0 ∨ s.memSize ≤ effectiveAddress s rA imm) :
    FaultOk s (.addressRange (effectiveAddress s rA imm)) := by
  obtain ⟨hlow, hhigh⟩ := effectiveAddress_bounds s rA himm
  exact ⟨hpc, by omega⟩

/-- The status that the instruction at a `pc` inside memory leaves, where the machine was running. -/
theorem Effect.statusOk (h : Effect s (decodeWord (s.mem.read s.pc.toNat)) t) (hs : s.status = .running)
    (hpc : s.pc.toNat < s.memSize) : StatusOk t := by
  unfold StatusOk
  split
  case h_1 => trivial
  case h_2 ht =>
    obtain ⟨hjump, htpc, hmem⟩ := h.of_halted hs ht
    rw [htpc, hmem, h.memSize_eq]
    exact ⟨hpc, hjump⟩
  case h_3 f ht =>
    obtain ⟨rfl, rB, rA, imm, hi, rfl, hout⟩ := h.of_faulted hs ht
    have hwf := decodeWord_wellFormed (s.mem.read s.pc.toNat)
    have himm : immInRange imm = true := by
      rcases hi with hi | hi <;> rwa [hi] at hwf
    exact faultOk_addressRange hpc himm hout

end Status

/-- Settles O49, part by part; a fetch fault changes the status only, and records the `pc` outside memory. -/
theorem stepKeepsInvariant : Obligations.StepKeepsInvariant := by
  intro s t hinv h
  obtain ⟨hmem, hbounds⟩ := stepKeepsMemoryCanonical s t hinv.memory hinv.bounds h
  obtain ⟨hl1, hl2⟩ := stepKeepsCachesWellFormed s t hinv.l1 hinv.l2 h
  refine ⟨configValid_of_step h, hmem, hbounds, hl1, hl2, ?trace, ?status⟩ <;>
    obtain ⟨hc, hs, ⟨hpc, rfl⟩ | ⟨hpc, heffect⟩⟩ := step_effect h
  case trace.inl => exact hinv.trace
  case trace.inr => exact heffect.keeps_trace hc hpc hinv.trace
  case status.inl => exact ⟨rfl, hpc⟩
  case status.inr => exact heffect.statusOk hs hpc

end Sys2Proof.Machine
end

section
/-! The caches are hidden from programs (10_state.md R22): what an operation does to a program's view depends
on the view alone, and so does a step. -/

namespace Sys2Proof.Machine

/-! The operations, from states with the same view. -/

section Operations

variable {s t : State} (h : s.view = t.view)

include h

theorem memSize_eq_of_view : s.memSize = t.memSize := congrArg ProgramView.memSize h

theorem pc_eq_of_view : s.pc = t.pc := congrArg ProgramView.pc h

theorem mem_eq_of_view : s.mem = t.mem := congrArg ProgramView.mem h

theorem status_eq_of_view : s.status = t.status := congrArg ProgramView.status h

theorem reg_eq_of_view (r : Reg) : s.reg r = t.reg r := congrArg (fun v : ProgramView => v.regs[r]) h

theorem effectiveAddress_eq_of_view (r : Reg) (imm : Int) :
    effectiveAddress s r imm = effectiveAddress t r imm := by
  rw [effectiveAddress, effectiveAddress, reg_eq_of_view h]

theorem setReg_view (r : Reg) (v : Word) : (s.setReg r v).view = (t.setReg r v).view :=
  congrArg (fun p : ProgramView => { p with regs := p.regs.set r v }) h

theorem setPc_view (target : Int) : (s.setPc target).view = (t.setPc target).view :=
  congrArg (fun p : ProgramView => { p with pc := mod16 target }) h

theorem raise_view (f : Fault) : (s.raise f).view = (t.raise f).view :=
  congrArg (fun p : ProgramView => { p with status := .faulted f }) h

theorem halt_view : s.halt.view = t.halt.view :=
  congrArg (fun p : ProgramView => { p with status := .halted }) h

theorem storeWord_view (a : Int) (v : Word) : (storeWord s a v).view = (storeWord t a v).view :=
  congrArg (fun p : ProgramView => { p with mem := p.mem.write a.toNat v }) h

theorem advance_view : s.advance.view = t.advance.view := by
  rw [State.advance, State.advance, pc_eq_of_view h]
  exact setPc_view h _

theorem writeResult_view (r : Reg) (v : Word) : (writeResult s r v).view = (writeResult t r v).view :=
  advance_view (setReg_view h r v)

theorem jumpOrHalt_view (target : Nat) : (jumpOrHalt s target).view = (jumpOrHalt t target).view := by
  rw [jumpOrHalt, jumpOrHalt, pc_eq_of_view h]
  split
  · exact halt_view h
  · exact setPc_view h _

/-- The two accesses may reach different caches, or different levels. -/
theorem completeAccess_view (a b : Nat) (isStore : Bool) :
    (completeAccess s a isStore).view = (completeAccess t b isStore).view :=
  have hs := (cacheAccess_frame s s.pc a isStore).1
  have ht := (cacheAccess_frame t t.pc b isStore).1
  advance_view ((hs.trans h).trans ht.symm)

end Operations

section Steps

variable {s t : State} (h : s.view = t.view)

include h

/-- One instruction, one case per family. -/
theorem exec_view (i : Instr) : SameOutcomeView (exec i s) (exec i t) := by
  have hreg := reg_eq_of_view h
  have hea := effectiveAddress_eq_of_view h
  have hsize := memSize_eq_of_view h
  cases i with
  | add _ _ _ | sub _ _ _ | or _ _ _ | and _ _ _ | slt _ _ _ | addi _ _ _ | slti _ _ _ =>
    simp only [exec_add, exec_sub, exec_or, exec_and, exec_slt, exec_addi, exec_slti, hreg]
    exact writeResult_view h _ _
  | jr rA ignored => rw [exec_jr, exec_jr, hreg]; exact setPc_view h _
  | reservedNop0101 _ | reservedNop011x _ _ | reservedNop1001 _ | reservedNop101x _ _ | reservedNop11xx _ _ =>
    exact advance_view h
  | jeq rA rB imm => rw [exec_jeq, exec_jeq, hreg, hreg, pc_eq_of_view h]; exact setPc_view h _
  | j target => exact jumpOrHalt_view h target
  | jal target =>
    rw [exec_jal, exec_jal, linkValue, linkValue, pc_eq_of_view h]
    exact jumpOrHalt_view (setReg_view h _ _) target
  | lw rB rA imm =>
    rcases inside_or_outside s (effectiveAddress s rA imm) with ⟨h0, h1⟩ | hout
    · rw [exec_lw_of_inRange h0 h1, exec_lw_of_inRange (hea rA imm ▸ h0) (hea rA imm ▸ hsize ▸ h1),
        mem_eq_of_view h, hea]
      exact completeAccess_view (setReg_view h _ _) _ _ _
    · rw [exec_lw_of_not_inRange hout, exec_lw_of_not_inRange (hea rA imm ▸ hsize ▸ hout), hea]
      exact raise_view h _
  | sw rB rA imm =>
    rcases inside_or_outside s (effectiveAddress s rA imm) with ⟨h0, h1⟩ | hout
    · rw [exec_sw_of_inRange h0 h1, exec_sw_of_inRange (hea rA imm ▸ h0) (hea rA imm ▸ hsize ▸ h1), hreg, hea]
      exact completeAccess_view (storeWord_view h _ _) _ _ _
    · rw [exec_sw_of_not_inRange hout, exec_sw_of_not_inRange (hea rA imm ▸ hsize ▸ hout), hea]
      exact raise_view h _

/-- One step: the same status, the same fetch, the same instruction. -/
theorem step_view (hs : configValid s.config = true) (ht : configValid t.config = true) :
    SameOutcomeView (step s) (step t) := by
  have hstatus := status_eq_of_view h
  cases hrun : s.status with
  | halted => rw [step_of_halted hs hrun, step_of_halted ht (hstatus ▸ hrun)]; rfl
  | faulted f => rw [step_of_faulted hs hrun, step_of_faulted ht (hstatus ▸ hrun)]; rfl
  | running =>
    have hrun' := hstatus ▸ hrun
    have hpc := pc_eq_of_view h
    have hsize := memSize_eq_of_view h
    rcases Nat.lt_or_ge s.pc.toNat s.memSize with hin | hout
    · rw [step_of_fetch_inside hs hrun hin, step_of_fetch_inside ht hrun' (hpc ▸ hsize ▸ hin),
        mem_eq_of_view h, hpc]
      exact exec_view h _
    · rw [step_of_fetch_outside hs hrun hout, step_of_fetch_outside ht hrun' (hpc ▸ hsize ▸ hout), hpc]
      exact raise_view h _

end Steps

/-- Two outcomes that a program cannot tell apart are of one form. -/
theorem SameOutcomeView.cases {o p : Host.Outcome State Fault Refusal} (h : SameOutcomeView o p) :
    (∃ s t, o = .next s ∧ p = .next t ∧ s.view = t.view) ∨
      (∃ f, o = .fault f ∧ p = .fault f) ∨ ∃ r, o = .refused r ∧ p = .refused r := by
  cases o <;> cases p <;> simp_all [SameOutcomeView]

theorem run_succ_of_fault {M : Host.Core} {s : M.State} {f : M.Fault} (h : M.step s = .fault f) (k : Nat) :
    M.run (k + 1) s = .fault f := by
  simp only [Host.Core.run, h]

theorem run_succ_of_refused {M : Host.Core} {s : M.State} {r : M.Refusal} (h : M.step s = .refused r)
    (k : Nat) : M.run (k + 1) s = .refused r := by
  simp only [Host.Core.run, h]

/-- Settles O37, by induction on the number of steps: one step keeps the views equal and the configurations
valid. -/
theorem programCannotSeeCaches : Obligations.ProgramCannotSeeCaches := by
  intro k
  induction k with
  | zero => exact fun _ _ _ _ h => h
  | succ k ih =>
    intro s t hs ht h
    rcases (step_view h hs ht).cases with ⟨s', t', hss, htt, hview⟩ | ⟨f, hss, htt⟩ | ⟨r, hss, htt⟩
    · rw [run_succ_of_next (M := Sys2Proof.core) hss, run_succ_of_next (M := Sys2Proof.core) htt]
      exact ih s' t' (configValid_of_step hss) (configValid_of_step htt) hview
    · rw [run_succ_of_fault (M := Sys2Proof.core) hss, run_succ_of_fault (M := Sys2Proof.core) htt]
      rfl
    · rw [run_succ_of_refused (M := Sys2Proof.core) hss, run_succ_of_refused (M := Sys2Proof.core) htt]
      rfl

end Sys2Proof.Machine
end

section
/-! The creation of the machine (70_reset_and_hazards.md R151, R152, R155; 50_cache.md R101, R121): which
integers are a configuration, the state that is built, and the report. -/

namespace Sys2Proof.Machine

/-! The configuration integers. -/

section Integers

theorem cacheTriple_eq_some (size assoc blockSize : Int) (c : CacheConfig) :
    cacheTriple size assoc blockSize = some c ↔
      cacheConfigValid c = true ∧
        { size := size.toNat, assoc := assoc.toNat, blockSize := blockSize.toNat } = c := by
  simp only [cacheTriple, Option.ite_none_right_eq_some, Option.some.injEq]
  constructor
  · rintro ⟨h, rfl⟩
    exact ⟨h, rfl⟩
  · rintro ⟨h, rfl⟩
    exact ⟨h, rfl⟩

/-- The check on the truncated integers is the check on the integers (00_scope.md R6). -/
theorem cacheConfigValid_toNat_iff (size assoc blockSize : Int) :
    cacheConfigValid { size := size.toNat, assoc := assoc.toNat, blockSize := blockSize.toNat } = true ↔
      ValidTriple size assoc blockSize := by
  rw [cacheConfigValid_iff]
  simp only [Int.lt_toNat, Nat.cast_zero]
  refine and_congr_right fun hs => and_congr_right fun ha => and_congr_right fun hb => ?_
  rw [← Int.natCast_dvd_natCast, Nat.cast_mul, Int.toNat_of_nonneg hs.le, Int.toNat_of_nonneg ha.le,
    Int.toNat_of_nonneg hb.le]

theorem exists_cacheTriple_iff (size assoc blockSize : Int) :
    (∃ c, cacheTriple size assoc blockSize = some c) ↔ ValidTriple size assoc blockSize := by
  simp only [cacheTriple_eq_some]
  rw [← cacheConfigValid_toNat_iff]
  constructor
  · rintro ⟨c, h, rfl⟩
    exact h
  · exact fun h => ⟨_, h, rfl⟩

/-- The two forms of an accepted list (50_cache.md R101). -/
theorem cacheConfigs_cases {ints : List Int} {l1 : CacheConfig} {l2 : Option CacheConfig}
    (h : cacheConfigs ints = some (l1, l2)) :
    (∃ s a b, ints = [s, a, b] ∧ cacheTriple s a b = some l1 ∧ l2 = none) ∨
      ∃ s1 a1 b1 s2 a2 b2 c2, ints = [s1, a1, b1, s2, a2, b2] ∧ cacheTriple s1 a1 b1 = some l1 ∧
        cacheTriple s2 a2 b2 = some c2 ∧ l2 = some c2 := by
  unfold cacheConfigs at h
  split at h
  case h_1 s a b =>
    obtain ⟨c, hc, heq⟩ := Option.map_eq_some_iff.1 h
    obtain ⟨rfl, rfl⟩ := Prod.mk.inj heq
    exact .inl ⟨s, a, b, rfl, hc, rfl⟩
  case h_2 s1 a1 b1 s2 a2 b2 =>
    split at h
    case h_1 c1 c2 h1 h2 =>
      obtain ⟨rfl, rfl⟩ := Prod.mk.inj (Option.some.inj h)
      exact .inr ⟨s1, a1, b1, s2, a2, b2, c2, rfl, h1, h2, rfl⟩
    case h_2 => cases h
  case h_3 => cases h

theorem cacheConfigs_valid {ints : List Int} {l1 : CacheConfig} {l2 : Option CacheConfig}
    (h : cacheConfigs ints = some (l1, l2)) :
    cacheConfigValid l1 = true ∧ ∀ c2 ∈ l2, cacheConfigValid c2 = true := by
  rcases cacheConfigs_cases h with ⟨s, a, b, -, h1, rfl⟩ | ⟨s1, a1, b1, s2, a2, b2, c2, -, h1, h2, rfl⟩
  · exact ⟨((cacheTriple_eq_some s a b l1).1 h1).1, nofun⟩
  · refine ⟨((cacheTriple_eq_some s1 a1 b1 l1).1 h1).1, ?_⟩
    rintro c ⟨⟩
    exact ((cacheTriple_eq_some s2 a2 b2 c2).1 h2).1

/-- The integers that are a configuration (70_reset_and_hazards.md R155). -/
theorem validInts_iff (ints : List Int) : ValidInts ints ↔ ∃ l1 l2, cacheConfigs ints = some (l1, l2) := by
  constructor
  · rintro (⟨s, a, b, rfl, h⟩ | ⟨s1, a1, b1, s2, a2, b2, rfl, h1, h2⟩)
    · obtain ⟨c, hc⟩ := (exists_cacheTriple_iff s a b).2 h
      exact ⟨c, none, by rw [cacheConfigs, hc]; rfl⟩
    · obtain ⟨c1, hc1⟩ := (exists_cacheTriple_iff s1 a1 b1).2 h1
      obtain ⟨c2, hc2⟩ := (exists_cacheTriple_iff s2 a2 b2).2 h2
      exact ⟨c1, some c2, by rw [cacheConfigs, hc1, hc2]⟩
  · rintro ⟨l1, l2, h⟩
    rcases cacheConfigs_cases h with ⟨s, a, b, rfl, h1, -⟩ | ⟨s1, a1, b1, s2, a2, b2, c2, rfl, h1, h2, -⟩
    · exact .inl ⟨s, a, b, rfl, (exists_cacheTriple_iff s a b).1 ⟨l1, h1⟩⟩
    · exact .inr ⟨s1, a1, b1, s2, a2, b2, rfl, (exists_cacheTriple_iff s1 a1 b1).1 ⟨l1, h1⟩,
        (exists_cacheTriple_iff s2 a2 b2).1 ⟨c2, h2⟩⟩

end Integers

/-! The ends of the reset sequence. -/

section Ends

variable {memSize : Nat} {ints : List Int} {image : List Word} {l1 : CacheConfig} {l2 : Option CacheConfig}

theorem bootConfig_of_valid (h : cacheConfigs ints = some (l1, l2)) (hsize : memSize ≤ 65472) :
    bootConfig memSize ints = some { memSize := memSize, l1 := l1, l2 := l2 } :=
  (bootConfig_eq_some _ _ _).2 ⟨rfl, h, (configValid_iff _).2 ⟨hsize, cacheConfigs_valid h⟩⟩

theorem bootConfig_of_invalid (h : ¬ ValidInts ints ∨ 65472 < memSize) : bootConfig memSize ints = none := by
  refine Option.eq_none_iff_forall_ne_some.2 fun c hc => ?_
  obtain ⟨hsize, hints, hvalid⟩ := (bootConfig_eq_some memSize ints c).1 hc
  obtain ⟨hbound, -⟩ := (configValid_iff c).1 hvalid
  rcases h with hinvalid | hlarge
  · exact hinvalid ((validInts_iff ints).2 ⟨_, _, hints⟩)
  · omega

theorem boot_of_invalid (h : bootConfig memSize ints = none) :
    boot memSize ints image = { report := none, outcome := .error .invalidConfiguration } := by
  rw [boot, h]

theorem boot_of_valid {c : Config} (h : bootConfig memSize ints = some c) :
    boot memSize ints image = { report := configReport c, outcome := bootState c image } := by
  rw [boot, h]

/-- The state that is built from a configuration and an image (10_state.md R25). -/
def startState (c : Config) (image : List Word) : State := { State.initial c with mem := imageCells 0 image }

theorem bootState_of_fits {c : Config} (h : image.length ≤ c.memSize) :
    bootState c image = .ok (startState c image) := if_pos h

theorem bootState_of_too_large {c : Config} (h : c.memSize < image.length) :
    bootState c image = .error .imageTooLarge := if_neg (Nat.not_le.2 h)

/-- Every started machine is in a start state. -/
theorem eq_startState_of_boot {s : State} (h : (boot memSize ints image).outcome = .ok s) :
    ∃ c, configValid c = true ∧ image.length ≤ c.memSize ∧ s = startState c image ∧
      (boot memSize ints image).report = configReport c := by
  rcases boot_cases memSize ints image with ⟨-, heq⟩ | ⟨c, -, hc, ⟨-, heq⟩ | ⟨hfits, heq⟩⟩ <;> rw [heq] at h ⊢
  · cases h
  · cases h
  · exact ⟨c, hc, hfits, (Except.ok.inj h).symm, rfl⟩

/-- Settles O55: the configuration is accepted, and the image does not fit. -/
theorem oversizeImageRefused : Obligations.OversizeImageRefused := by
  intro memSize ints image hints hsize hlarge
  obtain ⟨⟨l1, l2⟩, hl⟩ := Option.isSome_iff_exists.1 hints
  rw [boot_of_valid (bootConfig_of_valid hl hsize)]
  exact bootState_of_too_large hlarge

/-- Settles O54: the valid lists are those that `cacheConfigs` accepts. -/
theorem configurationAcceptedExactlyWhenValid : Obligations.ConfigurationAcceptedExactlyWhenValid := by
  intro memSize ints image
  refine ⟨fun hvalid hsize hfits => ?_, fun hinvalid => ?_, fun hlarge => ?_⟩
  · obtain ⟨l1, l2, hl⟩ := (validInts_iff ints).1 hvalid
    rw [boot_of_valid (bootConfig_of_valid hl hsize)]
    exact ⟨_, bootState_of_fits hfits⟩
  · rw [boot_of_invalid (bootConfig_of_invalid (.inl hinvalid))]
  · rw [boot_of_invalid (bootConfig_of_invalid (.inr hlarge))]

end Ends

/-! The start state. -/

section Start

variable (c : Config) (image : List Word)

@[simp] theorem startState_config : (startState c image).config = c := by
  obtain ⟨memSize, l1, l2⟩ := c
  cases l2 <;> rfl

theorem startState_reg (r : Reg) : (startState c image).reg r = 0 := Vector.getElem_replicate _

theorem read_imageCells_outside {start k : Nat} {ws : List Word} (h : start + ws.length ≤ k ∨ k < start) :
    (imageCells start ws).read k = 0 :=
  read_of_not_mem _ _ fun c hc => by
    have := imageCells_bounds start ws c hc
    omega

/-- The first word of an image stands at its first address, also where it is 0 and not listed. -/
theorem read_imageCells_cons (start : Nat) (w : Word) (ws : List Word) (k : Nat) :
    (imageCells start (w :: ws)).read k = if k = start then w else (imageCells (start + 1) ws).read k := by
  rw [imageCells]
  split
  case isTrue hzero =>
    split
    case isTrue hk => rw [read_imageCells_outside (.inr (by omega)), hzero]
    case isFalse => rfl
  case isFalse => exact read_cons start w _ k

theorem read_imageCells (start : Nat) (ws : List Word) (k : Nat) (h : k < ws.length) :
    (imageCells start ws).read (start + k) = ws[k] := by
  induction ws generalizing start k with
  | nil => cases h
  | cons w ws ih =>
    rw [read_imageCells_cons]
    cases k with
    | zero => exact if_pos rfl
    | succ k =>
      rw [if_neg (by omega), ← Nat.succ_add_eq_add_succ start k]
      exact ih (start + 1) k (Nat.lt_of_succ_lt_succ h)

theorem emptyCache_absent (c : CacheConfig) : CacheAbsent (emptyCache c) := by
  intro S hS sl hsl
  obtain rfl := List.eq_of_mem_replicate hS
  obtain rfl := List.eq_of_mem_replicate hsl
  exact ⟨rfl, rfl⟩

theorem setOk_replicate_absent (n : Nat) : SetOk n (List.replicate n Slot.absent) := by
  refine (setOk_iff_tags _ _).2 ⟨List.length_replicate, ?_⟩
  rw [List.map_replicate]
  exact List.pairwise_replicate.2 (.inr ⟨nofun, nofun⟩)

theorem emptyCache_ok (c : CacheConfig) : CacheOk (emptyCache c) := by
  refine ⟨List.length_replicate, fun S hS => ?_⟩
  obtain rfl := List.eq_of_mem_replicate hS
  exact setOk_replicate_absent c.assoc

/-- Settles O53: the machine is built, in the start state. -/
theorem bootGivesResetState : Obligations.BootGivesResetState := by
  intro memSize ints image l1 l2 hints hsize hfits
  rw [boot_of_valid (bootConfig_of_valid hints hsize)]
  refine ⟨_, bootState_of_fits hfits, startState_config _ _, startState_reg _ _, rfl, fun k hk => ?_,
    fun k hk => read_imageCells_outside (.inl (by omega)), emptyCache_absent l1, fun C hC => ?_, rfl, rfl⟩
  · have hread := read_imageCells 0 image k hk
    rwa [Nat.zero_add] at hread
  · obtain ⟨c2, -, rfl⟩ := Option.mem_map.1 hC
    exact emptyCache_absent c2

variable {c image}

theorem startState_inv (hc : configValid c = true) (hfits : image.length ≤ c.memSize) :
    Inv (startState c image) where
  config := (startState_config c image).symm ▸ hc
  memory := imageCells_wf 0 image
  bounds := fun cell hcell => by
    have := (imageCells_bounds 0 image cell hcell).2
    exact Nat.lt_of_lt_of_le (by omega) hfits
  l1 := emptyCache_ok c.l1
  l2 := fun C hC => by
    obtain ⟨c2, -, rfl⟩ := Option.mem_map.1 hC
    exact emptyCache_ok c2
  trace := nofun
  status := trivial

/-- Settles O56: the start state meets the invariant. -/
theorem bootHoldsInvariant : Obligations.BootHoldsInvariant := by
  intro memSize ints image s h
  obtain ⟨c, hc, hfits, rfl, -⟩ := eq_startState_of_boot h
  exact startState_inv hc hfits

/-- Settles O52: the reset state is the start state of the default configuration and the empty image. -/
theorem resetHoldsInvariant : Obligations.ResetHoldsInvariant :=
  startState_inv (c := Config.default) (image := []) (by decide) (Nat.zero_le _)

end Start

/-! The configuration report (50_cache.md R121). -/

section Report

/-- In a valid cache the lines cover the size exactly. -/
theorem cacheNumLines_mul {c : CacheConfig} (h : cacheConfigValid c = true) :
    cacheNumLines c * (c.assoc * c.blockSize) = c.size :=
  Nat.div_mul_cancel ((cacheConfigValid_iff c).1 h).2.2.2

/-- What an entry of the report says of its cache (50_cache.md R121). -/
abbrev ReportsCache (e : CacheReport) (c : CacheConfig) : Prop :=
  e.size = c.size ∧ e.assoc = c.assoc ∧ e.blockSize = c.blockSize ∧
    e.numLines * (e.assoc * e.blockSize) = e.size

theorem reportOf_reports (name : Level) {c : CacheConfig} (h : cacheConfigValid c = true) :
    ReportsCache (reportOf name c) c :=
  ⟨rfl, rfl, rfl, cacheNumLines_mul h⟩

/-- Settles O59: an accepted configuration is reported by one entry for each cache it has. -/
theorem configurationReportedBeforeFirstStep : Obligations.ConfigurationReportedBeforeFirstStep := by
  intro memSize ints image
  refine ⟨fun l1 l2 hints hsize => ?reported, fun hinvalid => ?unreported, fun s hs => ?own⟩
  case reported =>
    obtain ⟨h1, h2⟩ := cacheConfigs_valid hints
    rw [boot_of_valid (bootConfig_of_valid hints hsize),
      configReport_of_valid _ ((configValid_iff _).2 ⟨hsize, h1, h2⟩)]
    refine ⟨_, rfl, ?_, ?_⟩
    · cases l2 <;> rfl
    · intro e he
      rcases List.mem_cons.1 he with rfl | he
      · exact ⟨l1, .inl ⟨rfl, rfl⟩, reportOf_reports .l1 h1⟩
      · obtain ⟨c2, hc2, rfl⟩ := Option.mem_map.1 (Option.mem_toList.1 he)
        exact ⟨c2, .inr ⟨rfl, hc2.symm⟩, reportOf_reports .l2 (h2 c2 hc2)⟩
  case unreported => rw [boot_of_invalid (bootConfig_of_invalid hinvalid)]
  case own =>
    obtain ⟨c, -, -, rfl, hreport⟩ := eq_startState_of_boot hs
    rw [startState_config]
    exact ⟨hreport, rfl⟩

end Report

end Sys2Proof.Machine
end

section
/-! The listings (30_encoding.md R62, R63): a line assembles where its instruction has an encoding, and the
word is decoded to that instruction again. -/

namespace Sys2Proof.Machine

theorem isSome_encodeChecked_iff (i : Instr) : (encodeChecked i).isSome = true ↔ i.wellFormed = true := by
  simp [encodeChecked]

theorem decodeWord_of_encodeChecked {i : Instr} {w : Word} (h : encodeChecked i = some w) :
    decodeWord w = i := by
  obtain ⟨hi, rfl⟩ : i.wellFormed = true ∧ encode i = w := by simpa [encodeChecked] using h
  exact decodeOfEncode i hi

/-- Settles O57: the displacement is the target less the next address, and the branch adds it to that again.
-/
theorem assembledBranchReachesTarget : Obligations.AssembledBranchReachesTarget := by
  refine fun here a b target =>
    ⟨(isSome_encodeChecked_iff _).trans (immInRange_iff _), fun w s hw hpc hab => ?_⟩
  rw [decodeWord_of_encodeChecked hw, exec_jeq, if_pos hab, hpc]
  refine ⟨_, rfl, ?_⟩
  rw [setPc_pc_toNat, add_sub_cancel]

/-- Settles O58: the line is a `j` to the address it stands at. -/
theorem assembledHaltHalts : Obligations.AssembledHaltHalts := by
  refine fun here => ⟨(isSome_encodeChecked_iff _).trans (targetInRange_iff _), fun w s hw hpc => ?_⟩
  rw [decodeWord_of_encodeChecked hw, exec_j, jumpOrHalt_of_eq hpc.symm]
  rfl

end Sys2Proof.Machine
end
